-- ==== Sys2Proof/Word.lean ====
section
/-! DEFINITION. The word types of the machine and the width in force (spec/00_scope.md R5, R7). -/

namespace Sys2Proof

/-- One byte: a field `pmpNcfg` of the register (R15) or a byte of memory. -/
abbrev Byte := BitVec 8

/-- The container of an `XLEN`-bit value: with `XLEN = 32` it holds the value zero-extended (log 1). -/
abbrev XWord := BitVec 64

/-- R5, R6: `XLEN`, the width in force for an access. -/
inductive Xlen where
  | x32
  | x64
deriving DecidableEq, Repr

/-- The number of bits of a value of width `XLEN` (R5). -/
def Xlen.bits : Xlen → Nat
  | .x32 => 32
  | .x64 => 64

/-- R5: the number the source's page prints for `CSR[misa].MXL` in the captions of the two formats
(the database's numbering, not the RISC-V manual's; C5). -/
def Xlen.mxl : Xlen → Nat
  | .x32 => 0
  | .x64 => 1

end Sys2Proof
end

