-- ==== Sys2Proof/Syntax.lean ====
section
/-! DEFINITION. The instructions that reach the register (spec/30_encoding.md R62, R66), as assembler
terms: an operand is the number written, checked by WellFormed. -/

namespace Sys2Proof

/-- One constructor per row of spec/opcode_table.json. -/
inductive Instr where
  /-- `csrrw rd, pmpcfg6, rs1` (R74). -/
  | csrrw (rd rs1 : Nat)
  /-- `csrrs rd, pmpcfg6, rs1` (R75). -/
  | csrrs (rd rs1 : Nat)
  /-- `csrrc rd, pmpcfg6, rs1` (R76). -/
  | csrrc (rd rs1 : Nat)
  /-- `csrrwi rd, pmpcfg6, uimm` (R77). -/
  | csrrwi (rd uimm : Nat)
  /-- `csrrsi rd, pmpcfg6, uimm` (R78). -/
  | csrrsi (rd uimm : Nat)
  /-- `csrrci rd, pmpcfg6, uimm` (R79). -/
  | csrrci (rd uimm : Nat)
deriving DecidableEq, Repr

/-- The mnemonic of an instruction (R62). -/
def Instr.mnemonic : Instr → String
  | .csrrw _ _ => "csrrw"
  | .csrrs _ _ => "csrrs"
  | .csrrc _ _ => "csrrc"
  | .csrrwi _ _ => "csrrwi"
  | .csrrsi _ _ => "csrrsi"
  | .csrrci _ _ => "csrrci"

/-- The names the assembler accepts for a general register beside `x<n>` (R32). -/
def abiNames : List (List String) :=
  [["zero"], ["ra"], ["sp"], ["gp"], ["tp"], ["t0"], ["t1"], ["t2"]] ++
  [["s0", "fp"], ["s1"], ["a0"], ["a1"], ["a2"], ["a3"], ["a4"], ["a5"]] ++
  [["a6"], ["a7"], ["s2"], ["s3"], ["s4"], ["s5"], ["s6"], ["s7"]] ++
  [["s8"], ["s9"], ["s10"], ["s11"], ["t3"], ["t4"], ["t5"], ["t6"]]

/-- R65: `csrr rd, csr`, a read only. -/
def Pseudo.csrr (rd : Nat) : Instr := .csrrs rd 0
/-- R65: `csrw csr, rs1`, a write only. -/
def Pseudo.csrw (rs1 : Nat) : Instr := .csrrw 0 rs1
/-- R65: `csrs csr, rs1`, set bits. -/
def Pseudo.csrs (rs1 : Nat) : Instr := .csrrs 0 rs1
/-- R65: `csrc csr, rs1`, clear bits. -/
def Pseudo.csrc (rs1 : Nat) : Instr := .csrrc 0 rs1
/-- R65: `csrwi csr, uimm`, write immediate. -/
def Pseudo.csrwi (uimm : Nat) : Instr := .csrrwi 0 uimm
/-- R65: `csrsi csr, uimm`, set bits, immediate. -/
def Pseudo.csrsi (uimm : Nat) : Instr := .csrrsi 0 uimm
/-- R65: `csrci csr, uimm`, clear bits, immediate. -/
def Pseudo.csrci (uimm : Nat) : Instr := .csrrci 0 uimm

end Sys2Proof
end

