-- ==== Sys2Proof/WellFormed.lean ====
section
/-! DEFINITION. Which instruction terms the encoding admits: register numbers 0 to 31 and immediates
0 to 31 (spec/30_encoding.md R60, R63; spec/40_csr_access.md R74, R77). -/

namespace Sys2Proof

/-- A general-register number (R32, R74). -/
def isRegNum (n : Nat) : Bool := decide (n < 32)

/-- A 5-bit unsigned immediate (R63). -/
def isUimm (n : Nat) : Bool := decide (n < 32)

/-- Every operand fits its field of the instruction word (R60). -/
def Instr.wellFormed : Instr → Bool
  | .csrrw rd rs1 => isRegNum rd && isRegNum rs1
  | .csrrs rd rs1 => isRegNum rd && isRegNum rs1
  | .csrrc rd rs1 => isRegNum rd && isRegNum rs1
  | .csrrwi rd uimm => isRegNum rd && isUimm uimm
  | .csrrsi rd uimm => isRegNum rd && isUimm uimm
  | .csrrci rd uimm => isRegNum rd && isUimm uimm

/-- The well-formed instructions. -/
abbrev WellFormed (i : Instr) : Prop := i.wellFormed = true

end Sys2Proof
end

