-- ==== Sys2Proof/Decode.lean ====
section
/-! DEFINITION. From bytes to an instruction or a rejection by name, and back
(spec/30_encoding.md R60 to R66; spec/opcode_table.json). -/

namespace Sys2Proof

/-- Why a word is none of the six instructions. Every case is safe: the machine stops by name or raises. -/
inductive Rejection where
  /-- Fewer than the four bytes of an instruction (R60). -/
  | truncated
  /-- The two low bits are not `11`: not a 32-bit instruction (R60). -/
  | notThirtyTwoBit
  /-- An opcode other than `1110011` (R60). -/
  | otherOpcode
  /-- The opcode with `funct3` 000 or 100, which is no CSR instruction (R64). -/
  | notCsr
  /-- A CSR instruction on a register other than `pmpcfg6` (R64, R66). -/
  | otherCsr
deriving DecidableEq, Repr

/-! The fields of an instruction word, R60. -/

/-- Bits 31:20. -/
def csrField (w : BitVec 32) : BitVec 12 := w.extractLsb' 20 12
/-- Bits 19:15, `rs1` or `uimm`: a number, never sign-extended (R63). -/
def operandField (w : BitVec 32) : Nat := (w.extractLsb' 15 5).toNat
/-- Bits 14:12. -/
def funct3Field (w : BitVec 32) : BitVec 3 := w.extractLsb' 12 3
/-- Bits 11:7. -/
def rdField (w : BitVec 32) : Nat := (w.extractLsb' 7 5).toNat
/-- Bits 6:0. -/
def opcodeField (w : BitVec 32) : BitVec 7 := w.extractLsb' 0 7

/-- R62: the mask of every row with the CSR number fixed to 0x3A6. -/
def rowMask : BitVec 32 := 0xFFF0707F#32

/-- R62: the rows of the table: the match word, and the instruction of an `rd` and an operand. -/
def rows : List (BitVec 32 × (Nat → Nat → Instr)) :=
  [(0x3A601073#32, .csrrw), (0x3A602073#32, .csrrs), (0x3A603073#32, .csrrc)] ++
  [(0x3A605073#32, .csrrwi), (0x3A606073#32, .csrrsi), (0x3A607073#32, .csrrci)]

/-- The name of the rejection of a word that fits no row (R60, R64). -/
def rejectionOf (w : BitVec 32) : Rejection :=
  if w &&& 3#32 ≠ 3#32 then .notThirtyTwoBit
  else if opcodeField w ≠ 0x73#7 then .otherOpcode
  else if funct3Field w = 0#3 ∨ funct3Field w = 4#3 then .notCsr
  else .otherCsr

/-- R62: a word is the instruction of the row whose match it has under the mask. -/
def decode (w : BitVec 32) : Except Rejection Instr :=
  match rows.find? (fun r => w &&& rowMask == r.1) with
  | some r => .ok (r.2 (rdField w) (operandField w))
  | none => .error (rejectionOf w)

/-- R60: four bytes, the least significant at the lowest address. -/
def wordOfBytes (b0 b1 b2 b3 : Byte) : BitVec 32 :=
  (b3.setWidth 32 <<< 24) ||| (b2.setWidth 32 <<< 16) ||| (b1.setWidth 32 <<< 8) ||| b0.setWidth 32

/-- Decoding of a byte sequence: the instruction and the bytes after it. -/
def decodeBytes : List Byte → Except Rejection (Instr × List Byte)
  | b0 :: b1 :: b2 :: b3 :: rest =>
    match decode (wordOfBytes b0 b1 b2 b3) with
    | .ok i => .ok (i, rest)
    | .error r => .error r
  | _ => .error .truncated

/-! The encoder. -/

/-- R62: "The word of an instruction": the CSR number, the operand, `funct3`, `rd` and the opcode at their places. -/
def encodeFields (funct3 operand rd : Nat) : BitVec 32 :=
  (0x3A6#32 <<< 20) ||| (BitVec.ofNat 32 operand <<< 15) ||| (BitVec.ofNat 32 funct3 <<< 12)
    ||| (BitVec.ofNat 32 rd <<< 7) ||| 0x73#32

/-- R62: the word of an instruction. -/
def encode : Instr → BitVec 32
  | .csrrw rd rs1 => encodeFields 1 rs1 rd
  | .csrrs rd rs1 => encodeFields 2 rs1 rd
  | .csrrc rd rs1 => encodeFields 3 rs1 rd
  | .csrrwi rd uimm => encodeFields 5 uimm rd
  | .csrrsi rd uimm => encodeFields 6 uimm rd
  | .csrrci rd uimm => encodeFields 7 uimm rd

/-- R60: byte `j` of an instruction word, `j = 0` at the lowest address. -/
def byteOfWord (w : BitVec 32) (j : Nat) : Byte := w.extractLsb' (8 * j) 8

/-- R60: the four bytes of a word, lowest address first. -/
def bytesOfWord (w : BitVec 32) : List Byte :=
  [byteOfWord w 0, byteOfWord w 1, byteOfWord w 2, byteOfWord w 3]

/-- The bytes an instruction is stored as (R60). -/
def encodeBytes (i : Instr) : List Byte := bytesOfWord (encode i)

/-- The 32-bit word of an instruction of which the low `nbits` bits are `w` and every bit above is 0. -/
def tableWord (nbits w : Nat) : BitVec 32 := BitVec.ofNat 32 (w % 2 ^ nbits)

/-- What the decoder reads from an instruction whose bits are `w`, numbered as the opcode table numbers them. -/
def decodeTableWord (nbits w : Nat) : Option Instr :=
  match decodeBytes (bytesOfWord (tableWord nbits w)) with
  | .ok (i, _) => some i
  | .error _ => none

end Sys2Proof
end

