-- ==== Sys2Proof/Config.lean ====
section
/-! DEFINITION. What an implementation fixes for the life of the machine (spec/00_scope.md R2, R4, R6;
spec/20_memory.md R46). The record is a field of State that no step changes (log 2). -/

namespace Sys2Proof

/-- A version number of an extension (R2: "Smpmp, version >= Smpmp@1.11.0"). -/
structure Version where
  major : Nat
  minor : Nat
  patch : Nat
deriving DecidableEq, Repr

/-- The parameters of the implementation. -/
structure Config where
  /-- R4: `PMP_GRANULARITY`, a natural number used only through `PMP_GRANULARITY < 2`. -/
  pmpGranularity : Nat
  /-- R46: the `G` of the matching rule (regions of at least `2^(G+2)` bytes); no relation to
  `PMP_GRANULARITY` is fixed (C3, log 15). -/
  grain : Nat
  /-- R2, R13: the version of Smpmp the machine implements, or none. -/
  smpmp : Option Version
deriving DecidableEq, Repr

end Sys2Proof
end

