-- ==== Sys2Proof/Machine/State.lean ====
section
/-! DEFINITION. The state of the machine as plain data, the reasons a step can stop, and the state after
reset (spec/10_state.md, spec/60_exceptions.md, spec/70_reset_and_hazards.md). -/

namespace Sys2Proof.Machine

open Sys2Proof

/-- R96: the privilege modes. The virtualised modes are those R91 names; the model asks of a mode only
whether it is `machine`, and its encoding for accesses to other registers (log 21, log 25). -/
inductive Mode where
  | user
  | supervisor
  | virtualUser
  | virtualSupervisor
  | machine
deriving DecidableEq, Repr

/-- R41, R52: the kinds of memory access that the register's bits guard. -/
inductive AccessKind where
  | fetch
  | load
  | store
  | amo
  | loadReserved
  | storeConditional
deriving DecidableEq, Repr

/-- R16, R19: the four values of the field A. -/
inductive MatchMode where
  | off
  | tor
  | na4
  | napot
deriving DecidableEq, Repr

/-- Bytes of memory by address, in strictly rising order of address; an unlisted address holds no readable
byte (log 17). -/
abbrev Memory := List Host.Cell

/-- The machine. Fields from `pmpaddr` to `mpp` belong to the surrounding machine (R31, R44): the memory
check reads them and no instruction of this spec writes them (log 13). -/
structure State where
  /-- R14: the stored state of the register, always 64 bits. -/
  pmpcfg6 : BitVec 64
  /-- R32: `x1` to `x31`; `x0` has no storage. -/
  regs : Vector XWord 31
  /-- R33: the program counter. -/
  pc : XWord
  /-- R96: the privilege mode. -/
  mode : Mode
  /-- R5: the width in force. -/
  xlen : Xlen
  /-- R4, R13, R46: the parameters of the implementation. -/
  config : Config
  /-- R31, R43: the address registers of entries 0 to 63. -/
  pmpaddr : Vector (BitVec 54) 64
  /-- R44: the configuration bytes of entries 0 to 23. -/
  lowCfg : Vector Byte 24
  /-- R44: the configuration bytes of entries 32 to 63. -/
  highCfg : Vector Byte 32
  /-- R44: `mstatus.MPRV`. -/
  mprv : Bool
  /-- R44: `mstatus.MPP`. -/
  mpp : Mode
  /-- R41, R60: memory. -/
  mem : Memory
deriving DecidableEq, Repr

/-- R90, R91: the exceptions of this spec, each an outcome that ends the run (R95, log 11); then the
model's own stops. -/
inductive Fault where
  /-- R91, cause 2: raised by a CSR access outside M-mode or to an absent register, carrying the
  instruction word. Safe: a run that reaches it is no good run. -/
  | illegalInstruction (word : BitVec 32)
  /-- R90, cause 1: raised by the fetch when the memory check denies it, carrying the address. Safe. -/
  | instructionAccessFault (addr : BitVec 64)
  /-- R90, cause 5: raised by the check of a load or load-reserved. Safe. -/
  | loadAccessFault (addr : BitVec 64)
  /-- R90, cause 7: raised by the check of a store, AMO or store-conditional. Safe. -/
  | storeAmoAccessFault (addr : BitVec 64)
  /-- The model's own: an access outside the physical address space of R41 (log 17). Safe. -/
  | noSuchAddress (addr : BitVec 64)
  /-- The model's own: the program counter is not 4-byte aligned (R60, R48, log 18). Safe. -/
  | misalignedFetch (addr : BitVec 64)
  /-- The model's own: the fetch of a byte that nothing has written (log 17). Safe. -/
  | unwrittenMemory (addr : BitVec 64)
deriving DecidableEq, Repr

/-- Instructions without a meaning in this spec. Every refusal is safe. -/
inductive Refusal where
  /-- Raised by an arm of `exec` whose instruction has no meaning yet; no arm is in that state. Safe. -/
  | notModelled (mnemonic : String)
  /-- Raised by the step on a word whose two low bits are not `11` (R60, R64). Safe. -/
  | notThirtyTwoBit (word : BitVec 32)
  /-- Raised by the step on an opcode other than SYSTEM: no such instruction is in scope (R82). Safe. -/
  | otherOpcode (word : BitVec 32)
  /-- Raised by the step on SYSTEM with `funct3` 000 or 100 (R64, R82). Safe. -/
  | notCsr (word : BitVec 32)
  /-- Raised by the step on a permitted CSR access to another register, which this spec does not
  describe (00_scope.md section 3). Safe. -/
  | otherCsr (csr : BitVec 12)
deriving DecidableEq, Repr

/-- The three outcomes of a step of this machine. -/
abbrev Outcome := Host.Outcome State Fault Refusal

/-- The machine right after reset. The reset value of `pmpcfg6` is a draw among the legal values (R100), here
the draw 0 (log 3); the other values are launch inputs (R102), here those of the log: 1, 2, 4 to 6, 12, 14, 15, 17. -/
def State.reset : State where
  pmpcfg6 := 0#64
  regs := Vector.replicate 31 0#64
  pc := 0x1000#64
  mode := .machine
  xlen := .x64
  config := { pmpGranularity := 0, grain := 0, smpmp := some { major := 1, minor := 11, patch := 0 } }
  pmpaddr := Vector.replicate 64 (BitVec.allOnes 54)
  lowCfg := Vector.replicate 24 0#8
  highCfg := Vector.replicate 32 0#8
  mprv := false
  mpp := .user
  mem := []

end Sys2Proof.Machine
end

