-- ==== Sys2Proof/Machine/Operands.lean ====
section
/-! DEFINITION. Values of the width in force, the general registers, the immediate and the program counter
(spec/10_state.md R32, R33; spec/30_encoding.md R63). -/

namespace Sys2Proof.Machine

open Sys2Proof

/-- `v[XLEN-1:0]`, zero-extended into its container (R5, R7; log 1). -/
def truncX (x : Xlen) (v : XWord) : XWord :=
  match x with
  | .x32 => (v.setWidth 32).setWidth 64
  | .x64 => v

/-- `x[i]`: `x0` reads zero; the others are `XLEN` bits wide (R8, R32). -/
def State.readReg (s : State) (i : Nat) : XWord :=
  if i = 0 then 0#64 else truncX s.xlen (s.regs[i - 1]?.getD 0#64)

/-- `x[i] <- v`: a write of `x0` is dropped (R8, R32). -/
def State.writeReg (s : State) (i : Nat) (v : XWord) : State :=
  if i = 0 then s else { s with regs := s.regs.setIfInBounds (i - 1) (truncX s.xlen v) }

/-- R63: `zext_XLEN(uimm)`, the number in bits 19:15, neither sign-extended nor scaled. -/
def uimmValue (uimm : Nat) : XWord := (BitVec.ofNat 5 uimm).setWidth 64

/-- R33: `pc <- pc + 4`, the sum taken modulo `2^XLEN`. -/
def State.advancePc (s : State) : State := { s with pc := truncX s.xlen (s.pc + 4#64) }

end Sys2Proof.Machine
end

