-- ==== Sys2Proof/Machine/Flags.lean ====
section
/-! DEFINITION. The hardware has no status flags (spec/10_state.md section 6, spec/40_csr_access.md section 1).
The bits a rule tests are those of a field of the register: its parts (R16 to R23), what makes it legal (R26),
and the predicates over the parameters (R4, R13). -/

namespace Sys2Proof.Machine

open Sys2Proof

/-- R4, R19: `na4_ok := (PMP_GRANULARITY < 2)`. -/
def na4Ok (granularity : Nat) : Bool := decide (granularity < 2)

/-- R17: `locked(b) := (b & 0x80) != 0`. -/
def locked (b : Byte) : Bool := b &&& 0x80#8 != 0#8

/-- R20: bit X of a field. -/
def bitX (b : Byte) : Bool := b.getLsbD 2
/-- R21: bit W of a field. -/
def bitW (b : Byte) : Bool := b.getLsbD 1
/-- R22: bit R of a field. -/
def bitR (b : Byte) : Bool := b.getLsbD 0

/-- R18: bits 6:5 of a field, in place. -/
def reservedBits (b : Byte) : Byte := b &&& 0x60#8

/-- R23: the combination R = 0 with W = 1. -/
def reservedPair (b : Byte) : Bool := b &&& 0x1#8 == 0#8 && b &&& 0x2#8 == 0x2#8

/-- R19: the field asks for A = NA4 (2). -/
def asksNa4 (b : Byte) : Bool := b &&& 0x18#8 == 0x10#8

/-- R19: the address-matching mode, bits 4:3 of a field. -/
def matchMode (b : Byte) : MatchMode :=
  match b.getLsbD 4, b.getLsbD 3 with
  | false, false => .off
  | false, true => .tor
  | true, false => .na4
  | true, true => .napot

/-- R26: the bytes the write rule accepts; bit 7 and bits 6:5 are not looked at. -/
def legal (granularity : Nat) (b : Byte) : Bool :=
  !reservedPair b && (na4Ok granularity || !asksNa4 b)

/-- R15: `cfg[k]`, byte `k` of a 64-bit value. -/
def fieldOf (v : BitVec 64) (k : Nat) : Byte := v.extractLsb' (8 * k) 8

/-- R26, R27: every field of a register value is legal. -/
def allLegal (granularity : Nat) (v : BitVec 64) : Bool :=
  (List.range 8).all fun k => legal granularity (fieldOf v k)

/-- R2: a version of Smpmp from 1.11.0 on. -/
def definesPmpcfg6 (v : Version) : Bool :=
  decide (1 < v.major) || (v.major == 1 && decide (11 ≤ v.minor))

/-- R13, D7: the register, and with it entries 24 to 31, exists on this machine. -/
def hasPmpcfg6 (c : Config) : Bool :=
  match c.smpmp with
  | some v => definesPmpcfg6 v
  | none => false

end Sys2Proof.Machine
end

