-- ==== Sys2Proof/Machine/Ops.lean ====
section
/-! DEFINITION. The operations on the register and on memory, and raising an exception
(spec/40_csr_access.md R70 to R73; spec/60_exceptions.md R90, R91, R95; spec/70_reset_and_hazards.md R100). -/

namespace Sys2Proof.Machine

open Sys2Proof

/-! Exceptions. -/

/-- R95: `raise E(info)` ends the instruction with no state change, in an outcome that carries the
exception and its information; there is no trap entry and no return (D11, log 11). -/
def raise (f : Fault) : Outcome := .fault f

/-- R90, R91: the cause codes of the exceptions; the model's own stops have none. -/
def causeCode : Fault → Option Nat
  | .illegalInstruction _ => some 2
  | .instructionAccessFault _ => some 1
  | .loadAccessFault _ => some 5
  | .storeAmoAccessFault _ => some 7
  | .noSuchAddress _ => none
  | .misalignedFetch _ => none
  | .unwrittenMemory _ => none

/-! The register. -/

/-- R70: `ReadPmpcfg6(XLEN)`, the stored bits as they are. -/
def State.readPmpcfg6 (s : State) : XWord := truncX s.xlen s.pmpcfg6

/-- R71: `WriteField(k, old, new, XLEN)`. -/
def writeField (granularity k : Nat) (old new : Byte) (x : Xlen) : Byte :=
  if 4 ≤ k ∧ x ≠ .x64 then old
  else if locked old then old
  else if reservedPair new then old
  else if !na4Ok granularity && asksNa4 new then old
  else (new &&& 0x9F#8) ||| (old &&& 0x60#8)

/-- R72: eight bytes as one value, byte 0 lowest. -/
def joinFields (f : Nat → Byte) : BitVec 64 :=
  ((f 7).setWidth 64 <<< 56) ||| ((f 6).setWidth 64 <<< 48) ||| ((f 5).setWidth 64 <<< 40)
    ||| ((f 4).setWidth 64 <<< 32) ||| ((f 3).setWidth 64 <<< 24) ||| ((f 2).setWidth 64 <<< 16)
    ||| ((f 1).setWidth 64 <<< 8) ||| (f 0).setWidth 64

/-- R72: the value stored when software writes `v`: every field by its own rule, from the fields before the write. -/
def writtenValue (granularity : Nat) (x : Xlen) (old : BitVec 64) (v : XWord) : BitVec 64 :=
  joinFields fun k => writeField granularity k (fieldOf old k) (fieldOf (truncX x v) k) x

/-- R72: `WritePmpcfg6(v, XLEN)`. -/
def State.writePmpcfg6 (s : State) (v : XWord) : State :=
  { s with pmpcfg6 := writtenValue s.config.pmpGranularity s.xlen s.pmpcfg6 v }

/-- R73: `CheckAccess(mode) := (mode == M)`. -/
def checkAccess (m : Mode) : Bool := m == .machine

/-- R13, R91: the register exists and the mode may access it. -/
def State.canAccess (s : State) : Bool := hasPmpcfg6 s.config && checkAccess s.mode

/-- R74 to R79: the privilege test comes first; when it fails nothing else of the instruction happens (R91). -/
def csrAccess (word : BitVec 32) (s : State) (effect : State → State) : Outcome :=
  if s.canAccess then .next (effect s) else raise (.illegalInstruction word)

/-- R74, R77: write `v`, give `rd` the value before the write unless `rd` is `x0`, advance the pc. -/
def csrSwap (rd : Nat) (v : XWord) (s : State) : State :=
  let t := s.readPmpcfg6
  let s1 := s.writePmpcfg6 v
  (if rd = 0 then s1 else s1.writeReg rd t).advancePc

/-- R75, R76, R78, R79: read always, write `f` of the value read where `writes` says so, give `rd` the value
before the write, advance the pc. -/
def csrModify (rd : Nat) (writes : Bool) (f : XWord → XWord) (s : State) : State :=
  let t := s.readPmpcfg6
  let s1 := if writes then s.writePmpcfg6 (f t) else s
  (s1.writeReg rd t).advancePc

/-! Reset. -/

/-- R100: the reset step, with the draw `RESET_VALUE` as its input. -/
def resetWith (draw : BitVec 64) (s : State) : State := { s with pmpcfg6 := draw }

/-- R100: the only law of the draw: each of its fields is legal. -/
def legalDraw (c : Config) (draw : BitVec 64) : Bool := allLegal c.pmpGranularity draw

/-! Memory. -/

/-- Addresses strictly rise, so no address is listed twice. -/
abbrev Memory.wf (m : Memory) : Prop := m.Pairwise fun a b => a.1 < b.1

/-- The byte at an address; none where nothing has been written (log 17). -/
def Memory.read : Memory → Nat → Option Byte
  | [], _ => none
  | c :: m, a => if c.1 = a then some c.2 else Memory.read m a

/-- Write one byte, keeping the order. -/
def Memory.write : Memory → Nat → Byte → Memory
  | [], a, v => [(a, v)]
  | c :: m, a, v =>
    if a < c.1 then (a, v) :: c :: m
    else if c.1 = a then (a, v) :: m
    else c :: Memory.write m a v

/-- R60: the instruction word at an address, least significant byte lowest. -/
def Memory.readWord (m : Memory) (a : Nat) : Option (BitVec 32) :=
  match Memory.read m a, Memory.read m (a + 1), Memory.read m (a + 2), Memory.read m (a + 3) with
  | some b0, some b1, some b2, some b3 => some (wordOfBytes b0 b1 b2 b3)
  | _, _, _, _ => none

/-- R60: store an instruction word. -/
def Memory.writeWord (m : Memory) (a : Nat) (w : BitVec 32) : Memory :=
  Memory.write (Memory.write (Memory.write (Memory.write m a (byteOfWord w 0)) (a + 1) (byteOfWord w 1))
    (a + 2) (byteOfWord w 2)) (a + 3) (byteOfWord w 3)

end Sys2Proof.Machine
end

