-- ==== Sys2Proof/Machine/Csr.lean ====
section
/-! DEFINITION. The meanings of the six CSR-access instructions on `pmpcfg6`
(spec/40_csr_access.md R74 to R79). -/

namespace Sys2Proof.Machine

open Sys2Proof

/-- R74. -/
def execCsrrw (rd rs1 : Nat) (s : State) : Outcome :=
  csrAccess (encode (.csrrw rd rs1)) s fun s => csrSwap rd (s.readReg rs1) s

/-- R75: written when the register number `rs1` is not 0, whatever the register holds. -/
def execCsrrs (rd rs1 : Nat) (s : State) : Outcome :=
  csrAccess (encode (.csrrs rd rs1)) s fun s => csrModify rd (rs1 != 0) (fun t => t ||| s.readReg rs1) s

/-- R76. -/
def execCsrrc (rd rs1 : Nat) (s : State) : Outcome :=
  csrAccess (encode (.csrrc rd rs1)) s fun s => csrModify rd (rs1 != 0) (fun t => t &&& ~~~(s.readReg rs1)) s

/-- R77. -/
def execCsrrwi (rd uimm : Nat) (s : State) : Outcome :=
  csrAccess (encode (.csrrwi rd uimm)) s fun s => csrSwap rd (uimmValue uimm) s

/-- R78. -/
def execCsrrsi (rd uimm : Nat) (s : State) : Outcome :=
  csrAccess (encode (.csrrsi rd uimm)) s fun s => csrModify rd (uimm != 0) (fun t => t ||| uimmValue uimm) s

/-- R79. -/
def execCsrrci (rd uimm : Nat) (s : State) : Outcome :=
  csrAccess (encode (.csrrci rd uimm)) s fun s => csrModify rd (uimm != 0) (fun t => t &&& ~~~(uimmValue uimm)) s

end Sys2Proof.Machine
end

