-- ==== Sys2Proof/Machine/Dispatch.lean ====
section
/-! DEFINITION. One arm per instruction. -/

namespace Sys2Proof.Machine

open Sys2Proof

/-- What an instruction does. -/
def exec (i : Instr) (s : State) : Host.Outcome State Fault Refusal :=
  match i with
  | .csrrw rd rs1 => Sys2Proof.Machine.execCsrrw rd rs1 s
  | .csrrs rd rs1 => Sys2Proof.Machine.execCsrrs rd rs1 s
  | .csrrc rd rs1 => Sys2Proof.Machine.execCsrrc rd rs1 s
  | .csrrwi rd uimm => Sys2Proof.Machine.execCsrrwi rd uimm s
  | .csrrsi rd uimm => Sys2Proof.Machine.execCsrrsi rd uimm s
  | .csrrci rd uimm => Sys2Proof.Machine.execCsrrci rd uimm s

end Sys2Proof.Machine
end

