-- ==== Sys2Proof/Machine/Pmp.lean ====
section
/-! DEFINITION. The check of a memory access: what the register's bits guard (spec/20_memory.md R41 to R46, R52;
spec/60_exceptions.md R90, R94), the fetch that is checked by it, and the words that are none of the six
instructions (spec/30_encoding.md R64; spec/20_memory.md R40). -/

namespace Sys2Proof.Machine

open Sys2Proof

/-! One entry, R42. -/

/-- R42, R52: the permission bit of a kind of access; an AMO is tested under W only. -/
def permBit (kind : AccessKind) (b : Byte) : Bool :=
  match kind with
  | .fetch => bitX b
  | .load => bitR b
  | .loadReserved => bitR b
  | .store => bitW b
  | .amo => bitW b
  | .storeConditional => bitW b

/-- R42: `applies := (m != M) || locked(b)`. -/
def applies (m : Mode) (b : Byte) : Bool := m != .machine || locked b

/-- R42: the entry allows the access. -/
def entryAllows (m : Mode) (kind : AccessKind) (b : Byte) : Bool := !applies m b || permBit kind b

/-- R90: the Access Fault of a kind of access. -/
def accessFault (kind : AccessKind) (addr : BitVec 64) : Fault :=
  match kind with
  | .fetch => .instructionAccessFault addr
  | .load => .loadAccessFault addr
  | .loadReserved => .loadAccessFault addr
  | .store => .storeAmoAccessFault addr
  | .amo => .storeAmoAccessFault addr
  | .storeConditional => .storeAmoAccessFault addr

/-! Matching, R43 and R46. -/

/-- R41: the width of a physical address. -/
def addrBits : Xlen → Nat
  | .x32 => 34
  | .x64 => 56

/-- R43: the bits of an address register: bits 33:2 or 55:2 of a byte address. -/
def pmpaddrBits (x : Xlen) : Nat := addrBits x - 2

/-- R31: the address register of an entry, at the width in force. -/
def State.pmpaddrOf (s : State) (i : Nat) : Nat :=
  (s.pmpaddr[i]?.getD 0#54).toNat % 2 ^ pmpaddrBits s.xlen

/-- R16, R44: the configuration byte of an entry. Entries 24 to 31 are the fields of the register, where it
exists (R13). -/
def State.entryCfg (s : State) (i : Nat) : Byte :=
  if i < 24 then s.lowCfg[i]?.getD 0#8
  else if i < 32 then (if hasPmpcfg6 s.config then fieldOf s.pmpcfg6 (i - 24) else 0#8)
  else s.highCfg[i - 32]?.getD 0#8

/-- R46: an address-register value with its low `g` bits ignored, as a TOR comparison takes it. -/
def torBound (g a : Nat) : Nat := a / 2 ^ g * 2 ^ g

/-- R46: an address-register value as it reads while A is NAPOT: the low `g - 1` bits are ones. -/
def napotView (x : Xlen) (g a : Nat) : Nat := (a ||| (2 ^ (g - 1) - 1)) % 2 ^ pmpaddrBits x

/-- R43: the number of consecutive one bits at the low end, looking at `n` bits. -/
def trailingOnes : Nat → Nat → Nat
  | 0, _ => 0
  | n + 1, a => if a % 2 = 1 then trailingOnes n (a / 2) + 1 else 0

/-- R43: the first byte of a NAPOT region. -/
def napotBase (n a : Nat) : Nat := a / 2 ^ (trailingOnes n a + 1) * 2 ^ (trailingOnes n a + 1) * 4

/-- R43: the number of bytes of a NAPOT region. -/
def napotSize (n a : Nat) : Nat := 2 ^ (trailingOnes n a + 3)

/-- R43: the region of an entry as its first byte and the byte after its last; no byte for OFF. -/
def State.region (s : State) (i : Nat) : Nat × Nat :=
  let a := s.pmpaddrOf i
  match matchMode (s.entryCfg i) with
  | .off => (0, 0)
  | .tor => (if i = 0 then 0 else torBound s.config.grain (s.pmpaddrOf (i - 1)) * 4, torBound s.config.grain a * 4)
  | .na4 => (a * 4, a * 4 + 4)
  | .napot =>
    let v := napotView s.xlen s.config.grain a
    (napotBase (pmpaddrBits s.xlen) v, napotBase (pmpaddrBits s.xlen) v + napotSize (pmpaddrBits s.xlen) v)

/-- R43: entry `i` matches byte `z`. -/
def State.matchesByte (s : State) (i z : Nat) : Bool :=
  decide ((s.region i).1 ≤ z) && decide (z < (s.region i).2)

/-! The deciding entry, R44. -/

/-- The bytes of an access. -/
def bytesOf (addr size : Nat) : List Nat := (List.range size).map (addr + ·)

/-- R44: the lowest-numbered entry that matches any byte of an access. -/
def State.decidingEntry (s : State) (addr size : Nat) : Option Nat :=
  (List.range 64).find? fun i => (bytesOf addr size).any (s.matchesByte i)

/-- R44: the mode an access is checked in: loads and stores made in M-mode with MPRV set take MPP. -/
def State.effectiveMode (s : State) (kind : AccessKind) : Mode :=
  if kind ≠ .fetch ∧ s.mode = .machine ∧ s.mprv then s.mpp else s.mode

/-- R42, R44: the PMP allows an access in a mode. The deciding entry must match every byte (log 16); with no
entry M-mode passes and the others fail. A machine without Smpmp has no entry and makes no check (log 12). -/
def State.pmpAllows (s : State) (m : Mode) (kind : AccessKind) (addr size : Nat) : Bool :=
  if s.config.smpmp = none then true
  else
    match s.decidingEntry addr size with
    | some i => (bytesOf addr size).all (s.matchesByte i) && entryAllows m kind (s.entryCfg i)
    | none => m == .machine

/-- R41: the whole access lies in the physical address space. -/
def inSpace (x : Xlen) (addr size : Nat) : Bool := decide (addr + size ≤ 2 ^ addrBits x)

/-- R45, R90: the check of a memory access: the fault it causes, or none. -/
def State.accessCheck (s : State) (kind : AccessKind) (addr size : Nat) : Option Fault :=
  if inSpace s.xlen addr size then
    if s.pmpAllows (s.effectiveMode kind) kind addr size then none
    else some (accessFault kind (BitVec.ofNat 64 addr))
  else some (.noSuchAddress (BitVec.ofNat 64 addr))

/-- R44, R94: the check of an implicit page-table read made for an access of kind `original` to `addr`, whose
kind the fault takes. That the read is checked as a load in supervisor mode is DEDUCED (log 28): R44 puts it at S or U. -/
def State.pageTableCheck (s : State) (original : AccessKind) (addr : BitVec 64) (pte size : Nat) : Option Fault :=
  if inSpace s.xlen pte size then
    if s.pmpAllows .supervisor .load pte size then none else some (accessFault original addr)
  else some (.noSuchAddress (BitVec.ofNat 64 pte))

/-! Fetch. -/

/-- R33: the address the next instruction is fetched at. -/
def State.fetchAddr (s : State) : Nat := (truncX s.xlen s.pc).toNat

/-- R60, R90: the word at the program counter, after the check of the fetch (log 18, log 19). -/
def State.fetch (s : State) : Except Fault (BitVec 32) :=
  match s.accessCheck .fetch s.fetchAddr 4 with
  | some f => .error f
  | none =>
    if s.fetchAddr % 4 ≠ 0 then .error (.misalignedFetch (BitVec.ofNat 64 s.fetchAddr))
    else
      match Memory.readWord s.mem s.fetchAddr with
      | some w => .ok w
      | none => .error (.unwrittenMemory (BitVec.ofNat 64 s.fetchAddr))

/-! Words that are none of the six instructions. -/

/-- R40: bits 9:8 of a CSR number, the lowest privilege that may access it. -/
def csrLevel (csr : BitVec 12) : Nat := (csr.extractLsb' 8 2).toNat

/-- R40: bits 11:10 of a CSR number are 11. -/
def csrReadOnly (csr : BitVec 12) : Bool := csr.extractLsb' 10 2 == 3#2

/-- R74 to R79: the instruction writes its register: `funct3` 001 and 101 always, the others when the operand
number is not 0. -/
def csrWrites (w : BitVec 32) : Bool :=
  funct3Field w == 1#3 || funct3Field w == 5#3 || operandField w != 0

/-- R96: the encoding of a mode, compared with the level of a CSR number; a virtualised mode has that of the mode
it is named after (PRESUMED, log 25). -/
def Mode.privilege : Mode → Nat
  | .user => 0
  | .virtualUser => 0
  | .supervisor => 1
  | .virtualSupervisor => 1
  | .machine => 3

/-- R40, R64: the mode may not access a CSR of this number, its privilege being below the lowest that may (log 21). -/
def csrDenied (m : Mode) (csr : BitVec 12) : Bool := decide (m.privilege < csrLevel csr)

/-- R64, R30: what the spec says raises an illegal-instruction exception among accesses to other registers: a
register the mode may not access, a write of a read-only one in any mode, and `pmpcfg7` at `XLEN = 64`, where it
does not exist. -/
def State.otherCsrIllegal (s : State) (w : BitVec 32) : Bool :=
  csrDenied s.mode (csrField w)
    || (csrReadOnly (csrField w) && csrWrites w)
    || (csrField w == 0x3A7#12 && s.xlen == .x64)

/-- The outcome of a fetched word that is none of the six instructions (R64, R66, R82; log 21). -/
def State.rejectWord (s : State) (r : Rejection) (w : BitVec 32) : Outcome :=
  match r with
  | .truncated => .refused (.notThirtyTwoBit w)
  | .notThirtyTwoBit => .refused (.notThirtyTwoBit w)
  | .otherOpcode => .refused (.otherOpcode w)
  | .notCsr => .refused (.notCsr w)
  | .otherCsr =>
    if s.otherCsrIllegal w then raise (.illegalInstruction w) else .refused (.otherCsr (csrField w))

end Sys2Proof.Machine
end

