-- ==== Sys2Proof/Machine/Step.lean ====
section
/-! DEFINITION. One step: fetch at the program counter, decode, run (spec/10_state.md R33; spec/30_encoding.md R60). -/

namespace Sys2Proof.Machine

open Sys2Proof

/-- One step. -/
def step (s : State) : Host.Outcome State Fault Refusal :=
  match s.fetch with
  | .error f => raise f
  | .ok w =>
    match decode w with
    | .ok i => exec i s
    | .error r => s.rejectWord r w

/-- The state with the instruction of the low `nbits` bits `w` stored where the step fetches (log 23). -/
def State.withFetchWord (s : State) (nbits w : Nat) : State :=
  { s with mem := Memory.writeWord s.mem s.fetchAddr (tableWord nbits w) }

end Sys2Proof.Machine
end

