-- ==== Sys2Proof/Safety.lean ====
section
/-! DEFINITION. What the claims call a good state: the invariants of the machine
(spec/10_state.md R27, R32, R33; spec/30_encoding.md R60). -/

namespace Sys2Proof.Safety

open Sys2Proof Sys2Proof.Machine

/-- R27: every field of the register is legal. -/
abbrev FieldsLegal (s : State) : Prop :=
  ∀ k < 8, legal s.config.pmpGranularity (fieldOf s.pmpcfg6 k) = true

/-- R32, R33: the program counter and the general registers are `XLEN`-bit values. -/
abbrev WidthsOk (s : State) : Prop :=
  s.pc.toNat < 2 ^ s.xlen.bits ∧ ∀ j < 31, (s.regs[j]?.getD 0#64).toNat < 2 ^ s.xlen.bits

/-- R60: the program counter is the address of an instruction. -/
abbrev PcAligned (s : State) : Prop := s.fetchAddr % 4 = 0

/-- The memory is in its canonical form. -/
abbrev MemoryOk (s : State) : Prop := Memory.wf s.mem

/-- Everything but the register, the general registers and the program counter is as before: the mode, the width,
the parameters, the surrounding machine's registers, and every byte of memory (R45, R50). -/
abbrev Untouched (s t : State) : Prop :=
  t.mode = s.mode ∧ t.xlen = s.xlen ∧ t.config = s.config ∧ t.pmpaddr = s.pmpaddr ∧ t.lowCfg = s.lowCfg ∧
    t.highCfg = s.highCfg ∧ t.mprv = s.mprv ∧ t.mpp = s.mpp ∧ ∀ a, Memory.read t.mem a = Memory.read s.mem a

/-- R33: the program counter has advanced by 4 modulo `2^XLEN`. -/
abbrev PcAdvanced (s t : State) : Prop := t.pc.toNat = (s.pc.toNat + 4) % 2 ^ s.xlen.bits

/-- R32, R74 to R79: `rd` holds `v` unless it is `x0`, which still reads zero; every other register is as before. -/
abbrev OnlyRdWritten (rd : Nat) (v : XWord) (s t : State) : Prop :=
  (rd ≠ 0 → t.readReg rd = v) ∧ t.readReg 0 = 0#64 ∧ ∀ j < 32, j ≠ rd → t.readReg j = s.readReg j

/-- R72: the register has taken the value `v` offered by software, every field by its own rule. -/
abbrev FieldsWritten (v : XWord) (s t : State) : Prop :=
  ∀ k < 8, fieldOf t.pmpcfg6 k =
    writeField s.config.pmpGranularity k (fieldOf s.pmpcfg6 k) (fieldOf v k) s.xlen

end Sys2Proof.Safety
end

