-- ==== Sys2Proof/Certificates/Slice0/Obligations.lean ====
section
/-! DEFINITION. The statements for the provers. Each docstring names the rule it states. -/

open Sys2Proof Sys2Proof.Machine Sys2Proof.Safety

/-! Encoding. -/

/-- R62, on words written out in the spec's test vectors (95_test_vectors.md part D). -/
def Obligations.DecodesSpecWords : Prop :=
  decode 0x3A629373#32 = .ok (.csrrw 6 5) ∧ decode 0x3A62A073#32 = .ok (.csrrs 0 5) ∧
  decode 0x3A62B3F3#32 = .ok (.csrrc 7 5) ∧ decode 0x3A6FD073#32 = .ok (.csrrwi 0 31) ∧
  decode 0x3A6263F3#32 = .ok (.csrrsi 7 4) ∧ decode 0x3A6C7373#32 = .ok (.csrrci 6 24) ∧
  decode 0x3A7FD073#32 = .error .otherCsr

/-- R62: a word is instruction `m` exactly when it has the match of `m` under the mask, with `rd` the number in bits
11:7 and the operand the number in bits 19:15. -/
def Obligations.DecodeFollowsMatchAndMask : Prop :=
  ∀ (w : BitVec 32) (rd op : Nat),
    (decode w = .ok (.csrrw rd op) ↔
      w &&& 0xFFF0707F#32 = 0x3A601073#32 ∧ rd = w.toNat / 2 ^ 7 % 32 ∧ op = w.toNat / 2 ^ 15 % 32) ∧
    (decode w = .ok (.csrrs rd op) ↔
      w &&& 0xFFF0707F#32 = 0x3A602073#32 ∧ rd = w.toNat / 2 ^ 7 % 32 ∧ op = w.toNat / 2 ^ 15 % 32) ∧
    (decode w = .ok (.csrrc rd op) ↔
      w &&& 0xFFF0707F#32 = 0x3A603073#32 ∧ rd = w.toNat / 2 ^ 7 % 32 ∧ op = w.toNat / 2 ^ 15 % 32) ∧
    (decode w = .ok (.csrrwi rd op) ↔
      w &&& 0xFFF0707F#32 = 0x3A605073#32 ∧ rd = w.toNat / 2 ^ 7 % 32 ∧ op = w.toNat / 2 ^ 15 % 32) ∧
    (decode w = .ok (.csrrsi rd op) ↔
      w &&& 0xFFF0707F#32 = 0x3A606073#32 ∧ rd = w.toNat / 2 ^ 7 % 32 ∧ op = w.toNat / 2 ^ 15 % 32) ∧
    (decode w = .ok (.csrrci rd op) ↔
      w &&& 0xFFF0707F#32 = 0x3A607073#32 ∧ rd = w.toNat / 2 ^ 7 % 32 ∧ op = w.toNat / 2 ^ 15 % 32)

/-- R60, R62: decoding the bytes an instruction is stored as gives the instruction and the bytes after it. -/
def Obligations.DecodeEncodeRoundTrip : Prop :=
  ∀ (i : Instr) (rest : List Byte), WellFormed i →
    decode (encode i) = .ok i ∧ decodeBytes (encodeBytes i ++ rest) = .ok (i, rest)

/-- R62: every word that decodes is the word of the instruction it decodes to, which is well-formed. -/
def Obligations.EncodeOfDecodedWord : Prop :=
  ∀ (w : BitVec 32) (i : Instr), decode w = .ok i → WellFormed i ∧ encode i = w

/-- R62: the number of an instruction word, each field at its place. -/
def Obligations.EncodedWordIsSumOfFields : Prop :=
  ∀ rd op : Nat, rd < 32 → op < 32 →
    (encode (.csrrw rd op)).toNat = 0x3A6 * 2 ^ 20 + op * 2 ^ 15 + 1 * 2 ^ 12 + rd * 2 ^ 7 + 0x73 ∧
    (encode (.csrrs rd op)).toNat = 0x3A6 * 2 ^ 20 + op * 2 ^ 15 + 2 * 2 ^ 12 + rd * 2 ^ 7 + 0x73 ∧
    (encode (.csrrc rd op)).toNat = 0x3A6 * 2 ^ 20 + op * 2 ^ 15 + 3 * 2 ^ 12 + rd * 2 ^ 7 + 0x73 ∧
    (encode (.csrrwi rd op)).toNat = 0x3A6 * 2 ^ 20 + op * 2 ^ 15 + 5 * 2 ^ 12 + rd * 2 ^ 7 + 0x73 ∧
    (encode (.csrrsi rd op)).toNat = 0x3A6 * 2 ^ 20 + op * 2 ^ 15 + 6 * 2 ^ 12 + rd * 2 ^ 7 + 0x73 ∧
    (encode (.csrrci rd op)).toNat = 0x3A6 * 2 ^ 20 + op * 2 ^ 15 + 7 * 2 ^ 12 + rd * 2 ^ 7 + 0x73

/-! The step. -/

/-- R33, R60: when the fetch passes the memory check at an aligned pc and the four bytes there decode, the step is
the instruction. The step adds nothing around it. -/
def Obligations.StepRunsDecodedInstruction : Prop :=
  ∀ (s : State) (b0 b1 b2 b3 : Byte) (i : Instr),
    s.accessCheck .fetch s.fetchAddr 4 = none → s.fetchAddr % 4 = 0 →
    Memory.read s.mem s.fetchAddr = some b0 → Memory.read s.mem (s.fetchAddr + 1) = some b1 →
    Memory.read s.mem (s.fetchAddr + 2) = some b2 → Memory.read s.mem (s.fetchAddr + 3) = some b3 →
    decode (wordOfBytes b0 b1 b2 b3) = .ok i → step s = exec i s

/-- R60, R62 and log 23: storing an instruction's word where the step fetches makes the step run it. -/
def Obligations.StoredWordRuns : Prop :=
  ∀ (s : State) (i : Instr), WellFormed i → s.fetchAddr % 4 = 0 →
    s.accessCheck .fetch s.fetchAddr 4 = none →
    step (s.withFetchWord 32 (encode i).toNat) = exec i (s.withFetchWord 32 (encode i).toNat)

/-- R33 and the effects of R74 to R79: a step that gives a next state advances the pc by 4 modulo `2^XLEN` and touches
nothing but the register, the general registers and the pc. That the width and the parameters stand in State and stay
is the model's choice (log 1, log 2), as are the surrounding machine's registers (log 13). -/
def Obligations.StepAdvancesPcAndKeepsSurroundings : Prop :=
  ∀ s t : State, step s = .next t → PcAdvanced s t ∧ Untouched s t

/-! Reading and writing the register. -/

/-- R70: a read returns the stored bits of the fields in view, bits 6:5 included, and zero above the width. -/
def Obligations.ReadReturnsStoredFields : Prop :=
  ∀ (s : State) (k : Nat), k < 8 →
    fieldOf s.readPmpcfg6 k = if s.xlen = .x32 ∧ 4 ≤ k then 0#8 else fieldOf s.pmpcfg6 k

/-- R71, bit by bit: out of reach, locked, the reserved pair and a forbidden NA4 each keep the old byte; otherwise
bits 6:5 are the old ones and every other bit is the new one. -/
def Obligations.WriteFieldRule : Prop :=
  ∀ (P k : Nat) (old new : Byte) (x : Xlen), k < 8 →
    if (4 ≤ k ∧ x = .x32) ∨ old.getLsbD 7 = true ∨ (new.getLsbD 0 = false ∧ new.getLsbD 1 = true) ∨
        (2 ≤ P ∧ new.getLsbD 4 = true ∧ new.getLsbD 3 = false)
    then writeField P k old new x = old
    else ∀ i < 8, (writeField P k old new x).getLsbD i =
      if i = 5 ∨ i = 6 then old.getLsbD i else new.getLsbD i

/-- R71: at `XLEN = 64`, when the old and the new byte have the same bits 6:5, the rule gives what the source's own
text gives: the nested tests with the whole new byte returned. -/
def Obligations.WriteFieldAgreesWithSourceText : Prop :=
  ∀ (P k : Nat) (old new : Byte), k < 8 → old &&& 0x60#8 = new &&& 0x60#8 →
    writeField P k old new .x64 =
      if old &&& 0x80#8 = 0#8 then
        if ¬(new &&& 0x1#8 = 0#8 ∧ new &&& 0x2#8 = 0x2#8) then
          if P < 2 ∨ new &&& 0x18#8 ≠ 0x10#8 then new else old
        else old
      else old

/-- R72: the write replaces all eight fields, each by its own rule from its own old byte and its own new byte, and
changes nothing else. -/
def Obligations.RegisterWriteIsFieldwise : Prop :=
  ∀ (s : State) (v : XWord),
    FieldsWritten v s (s.writePmpcfg6 v) ∧
    (∀ j, (s.writePmpcfg6 v).readReg j = s.readReg j) ∧ (s.writePmpcfg6 v).pc = s.pc ∧
    Untouched s (s.writePmpcfg6 v)

/-- R81 (a): writing back what was read leaves a register with legal fields unchanged. -/
def Obligations.WriteBackIsIdentity : Prop :=
  ∀ s : State, FieldsLegal s → (s.writePmpcfg6 s.readPmpcfg6).pmpcfg6 = s.pmpcfg6

/-- R81 (b): the same write twice leaves what the first one left. -/
def Obligations.WriteIsIdempotent : Prop :=
  ∀ (s : State) (v : XWord), (s.writePmpcfg6 v).writePmpcfg6 v = s.writePmpcfg6 v

/-- R81 (c): the new field `k` depends on the old field `k`, byte `k` of the value, the width and the granularity
parameter, and on nothing else. -/
def Obligations.FieldsAreIndependent : Prop :=
  ∀ (s t : State) (v w : XWord) (k : Nat), k < 8 →
    s.xlen = t.xlen → s.config.pmpGranularity = t.config.pmpGranularity →
    fieldOf s.pmpcfg6 k = fieldOf t.pmpcfg6 k → fieldOf v k = fieldOf w k →
    fieldOf (s.writePmpcfg6 v).pmpcfg6 k = fieldOf (t.writePmpcfg6 w).pmpcfg6 k

/-- R81 (e), R28: a legal byte with bit 7 set locks an unlocked field in reach in one write, with its own bits 7 and
4:0, and no sequence of later writes undoes it. -/
def Obligations.OneWriteLocksForGood : Prop :=
  ∀ (s : State) (v : XWord) (later : List XWord) (k : Nat), k < 8 → (k < 4 ∨ s.xlen = .x64) →
    locked (fieldOf s.pmpcfg6 k) = false → locked (fieldOf v k) = true →
    legal s.config.pmpGranularity (fieldOf v k) = true →
    fieldOf (s.writePmpcfg6 v).pmpcfg6 k &&& 0x9F#8 = fieldOf v k &&& 0x9F#8 ∧
    locked (fieldOf (s.writePmpcfg6 v).pmpcfg6 k) = true ∧
    fieldOf (later.foldl State.writePmpcfg6 (s.writePmpcfg6 v)).pmpcfg6 k = fieldOf (s.writePmpcfg6 v).pmpcfg6 k

/-- R26: how many of the 256 bytes are legal. -/
def Obligations.LegalByteCount : Prop :=
  ∀ P : Nat, ((List.range 256).filter fun n => legal P (BitVec.ofNat 8 n)).length = if P < 2 then 192 else 144

/-- R2, R13: the register exists exactly on a machine with Smpmp from version 1.11.0 on. -/
def Obligations.RegisterExistsFromVersion : Prop :=
  ∀ c : Config, hasPmpcfg6 c = true ↔
    ∃ v, c.smpmp = some v ∧ (1 < v.major ∨ (v.major = 1 ∧ 11 ≤ v.minor))

/-! The instructions: in M-mode each has its effect; in another mode it raises, with its own word. -/

/-- R74. -/
def Obligations.CsrrwSwaps : Prop :=
  ∀ (rd rs1 : Nat) (s : State), rd < 32 → rs1 < 32 → hasPmpcfg6 s.config = true →
    (s.mode = .machine → ∃ t, exec (.csrrw rd rs1) s = .next t ∧
      FieldsWritten (s.readReg rs1) s t ∧ OnlyRdWritten rd s.readPmpcfg6 s t ∧ PcAdvanced s t ∧ Untouched s t) ∧
    (s.mode ≠ .machine → exec (.csrrw rd rs1) s =
      .fault (.illegalInstruction (0x3A601073#32 ||| (BitVec.ofNat 32 rs1 <<< 15) ||| (BitVec.ofNat 32 rd <<< 7))))

/-- R75: no write when the register number is 0; otherwise the bits set are offered. -/
def Obligations.CsrrsSetsBits : Prop :=
  ∀ (rd rs1 : Nat) (s : State), rd < 32 → rs1 < 32 → hasPmpcfg6 s.config = true →
    (s.mode = .machine → ∃ t, exec (.csrrs rd rs1) s = .next t ∧
      (rs1 = 0 → t.pmpcfg6 = s.pmpcfg6) ∧ (rs1 ≠ 0 → FieldsWritten (s.readPmpcfg6 ||| s.readReg rs1) s t) ∧
      OnlyRdWritten rd s.readPmpcfg6 s t ∧ PcAdvanced s t ∧ Untouched s t) ∧
    (s.mode ≠ .machine → exec (.csrrs rd rs1) s =
      .fault (.illegalInstruction (0x3A602073#32 ||| (BitVec.ofNat 32 rs1 <<< 15) ||| (BitVec.ofNat 32 rd <<< 7))))

/-- R76. -/
def Obligations.CsrrcClearsBits : Prop :=
  ∀ (rd rs1 : Nat) (s : State), rd < 32 → rs1 < 32 → hasPmpcfg6 s.config = true →
    (s.mode = .machine → ∃ t, exec (.csrrc rd rs1) s = .next t ∧
      (rs1 = 0 → t.pmpcfg6 = s.pmpcfg6) ∧ (rs1 ≠ 0 → FieldsWritten (s.readPmpcfg6 &&& ~~~s.readReg rs1) s t) ∧
      OnlyRdWritten rd s.readPmpcfg6 s t ∧ PcAdvanced s t ∧ Untouched s t) ∧
    (s.mode ≠ .machine → exec (.csrrc rd rs1) s =
      .fault (.illegalInstruction (0x3A603073#32 ||| (BitVec.ofNat 32 rs1 <<< 15) ||| (BitVec.ofNat 32 rd <<< 7))))

/-- R77. -/
def Obligations.CsrrwiWritesImmediate : Prop :=
  ∀ (rd uimm : Nat) (s : State), rd < 32 → uimm < 32 → hasPmpcfg6 s.config = true →
    (s.mode = .machine → ∃ t, exec (.csrrwi rd uimm) s = .next t ∧
      FieldsWritten (BitVec.ofNat 64 uimm) s t ∧ OnlyRdWritten rd s.readPmpcfg6 s t ∧ PcAdvanced s t ∧
      Untouched s t) ∧
    (s.mode ≠ .machine → exec (.csrrwi rd uimm) s =
      .fault (.illegalInstruction (0x3A605073#32 ||| (BitVec.ofNat 32 uimm <<< 15) ||| (BitVec.ofNat 32 rd <<< 7))))

/-- R78. -/
def Obligations.CsrrsiSetsImmediateBits : Prop :=
  ∀ (rd uimm : Nat) (s : State), rd < 32 → uimm < 32 → hasPmpcfg6 s.config = true →
    (s.mode = .machine → ∃ t, exec (.csrrsi rd uimm) s = .next t ∧
      (uimm = 0 → t.pmpcfg6 = s.pmpcfg6) ∧
      (uimm ≠ 0 → FieldsWritten (s.readPmpcfg6 ||| BitVec.ofNat 64 uimm) s t) ∧
      OnlyRdWritten rd s.readPmpcfg6 s t ∧ PcAdvanced s t ∧ Untouched s t) ∧
    (s.mode ≠ .machine → exec (.csrrsi rd uimm) s =
      .fault (.illegalInstruction (0x3A606073#32 ||| (BitVec.ofNat 32 uimm <<< 15) ||| (BitVec.ofNat 32 rd <<< 7))))

/-- R79. -/
def Obligations.CsrrciClearsImmediateBits : Prop :=
  ∀ (rd uimm : Nat) (s : State), rd < 32 → uimm < 32 → hasPmpcfg6 s.config = true →
    (s.mode = .machine → ∃ t, exec (.csrrci rd uimm) s = .next t ∧
      (uimm = 0 → t.pmpcfg6 = s.pmpcfg6) ∧
      (uimm ≠ 0 → FieldsWritten (s.readPmpcfg6 &&& ~~~BitVec.ofNat 64 uimm) s t) ∧
      OnlyRdWritten rd s.readPmpcfg6 s t ∧ PcAdvanced s t ∧ Untouched s t) ∧
    (s.mode ≠ .machine → exec (.csrrci rd uimm) s =
      .fault (.illegalInstruction (0x3A607073#32 ||| (BitVec.ofNat 32 uimm <<< 15) ||| (BitVec.ofNat 32 rd <<< 7))))

/-- R91: outside M-mode, and on a machine without the register, every one of the six raises illegal instruction
(cause 2) with its own word; the fault carries no state, so nothing is read or written. -/
def Obligations.IllegalAccessRaises : Prop :=
  ∀ (i : Instr) (s : State), WellFormed i → s.mode ≠ .machine ∨ hasPmpcfg6 s.config = false →
    exec i s = .fault (.illegalInstruction (encode i)) ∧ causeCode (.illegalInstruction (encode i)) = some 2

/-- R92: in M-mode every one of the six completes whatever value is written, and a field offered an illegal byte,
locked or out of reach keeps its old value. -/
def Obligations.WrittenValueNeverRaises : Prop :=
  (∀ (i : Instr) (s : State), s.mode = .machine → hasPmpcfg6 s.config = true → ∃ t, exec i s = .next t) ∧
  (∀ (s : State) (v : XWord) (k : Nat), k < 8 →
    (legal s.config.pmpGranularity (fieldOf v k) = false ∨ locked (fieldOf s.pmpcfg6 k) = true ∨
      (4 ≤ k ∧ s.xlen = .x32)) →
    fieldOf (s.writePmpcfg6 v).pmpcfg6 k = fieldOf s.pmpcfg6 k)

/-- R94: the only way one of the six stops is the illegal-instruction exception, and only where the access is not
allowed; none is ever refused. -/
def Obligations.OnlyStopOfAnInstruction : Prop :=
  ∀ (i : Instr) (s : State),
    (∀ f, exec i s = .fault f →
      f = .illegalInstruction (encode i) ∧ (s.mode ≠ .machine ∨ hasPmpcfg6 s.config = false)) ∧
    (∀ r, exec i s ≠ .refused r)

/-- R65: `csrr` only reads, `csrw` only writes, `csrs` and `csrc` write the bits set or cleared and no register. -/
def Obligations.PseudoInstructionEffects : Prop :=
  ∀ (n : Nat) (s : State), n < 32 → s.mode = .machine → hasPmpcfg6 s.config = true →
    (∃ t, exec (Pseudo.csrr n) s = .next t ∧ t.pmpcfg6 = s.pmpcfg6 ∧ OnlyRdWritten n s.readPmpcfg6 s t) ∧
    (∃ t, exec (Pseudo.csrw n) s = .next t ∧ FieldsWritten (s.readReg n) s t ∧
      ∀ j < 32, t.readReg j = s.readReg j) ∧
    (n ≠ 0 → ∃ t, exec (Pseudo.csrs n) s = .next t ∧ FieldsWritten (s.readPmpcfg6 ||| s.readReg n) s t ∧
      ∀ j < 32, t.readReg j = s.readReg j) ∧
    (n ≠ 0 → ∃ t, exec (Pseudo.csrc n) s = .next t ∧ FieldsWritten (s.readPmpcfg6 &&& ~~~s.readReg n) s t ∧
      ∀ j < 32, t.readReg j = s.readReg j)

/-- R63: an immediate form sets no bit of the register but bits 4:0. -/
def Obligations.ImmediateFormsReachLowBitsOnly : Prop :=
  ∀ (rd uimm : Nat) (s t : State), rd < 32 → uimm < 32 →
    (exec (.csrrwi rd uimm) s = .next t ∨ exec (.csrrsi rd uimm) s = .next t ∨
      exec (.csrrci rd uimm) s = .next t) →
    t.pmpcfg6 &&& ~~~s.pmpcfg6 &&& ~~~0x1F#64 = 0#64

/-- R50: after `csrrw rd, pmpcfg6, rs1` the next read gives, field by field, the value the write left. -/
def Obligations.LaterReadSeesWrite : Prop :=
  ∀ (rd rs1 rd' : Nat) (s : State), rd' ≠ 0 → rd' < 32 → s.mode = .machine → hasPmpcfg6 s.config = true →
    ∃ t u, exec (.csrrw rd rs1) s = .next t ∧ exec (.csrrs rd' 0) t = .next u ∧
      ∀ k < 8, (k < 4 ∨ s.xlen = .x64) → fieldOf (u.readReg rd') k =
        writeField s.config.pmpGranularity k (fieldOf s.pmpcfg6 k) (fieldOf (s.readReg rs1) k) s.xlen

/-- R17, R42, R50: a csrrw that locks an unlocked field in reach without X makes the next fetch fault, even in
M-mode, when that entry decides it. The checked fetch and the address in the fault are the model's (log 19, log 27). -/
def Obligations.LockWithoutExecuteStopsNextFetch : Prop :=
  ∀ (rd rs1 k : Nat) (s t : State), k < 8 → (k < 4 ∨ s.xlen = .x64) →
    locked (fieldOf s.pmpcfg6 k) = false → locked (fieldOf (s.readReg rs1) k) = true →
    bitX (fieldOf (s.readReg rs1) k) = false →
    legal s.config.pmpGranularity (fieldOf (s.readReg rs1) k) = true →
    exec (.csrrw rd rs1) s = .next t → t.decidingEntry t.fetchAddr 4 = some (24 + k) →
    inSpace t.xlen t.fetchAddr 4 = true →
    step t = .fault (.instructionAccessFault (BitVec.ofNat 64 t.fetchAddr))

/-! Invariants. -/

/-- R27: every step keeps every field legal. -/
def Obligations.StepKeepsFieldsLegal : Prop :=
  ∀ s t : State, FieldsLegal s → step s = .next t → FieldsLegal t

/-- R28: over any number of steps from any state, a locked field never changes. -/
def Obligations.LockedFieldNeverChanges : Prop :=
  ∀ (n : Nat) (s t : State) (k : Nat), Sys2Proof.core.run n s = .next t → k < 8 →
    locked (fieldOf (State.pmpcfg6 s) k) = true → fieldOf (State.pmpcfg6 t) k = fieldOf (State.pmpcfg6 s) k

/-- R29: over any number of steps from any state, bits 6:5 of every field keep their value. -/
def Obligations.ReservedBitsNeverChange : Prop :=
  ∀ (n : Nat) (s t : State) (k : Nat), Sys2Proof.core.run n s = .next t → k < 8 →
    reservedBits (fieldOf (State.pmpcfg6 t) k) = reservedBits (fieldOf (State.pmpcfg6 s) k)

/-- R14, R71: at `XLEN = 32` no access reaches fields 4 to 7, so over any number of steps they keep their values. The
spec takes `XLEN` as an input of each access; that the width of the first state is the width of every later step is the
model's choice (log 1). -/
def Obligations.HighFieldsOutOfReach : Prop :=
  ∀ (n : Nat) (s t : State) (k : Nat), Sys2Proof.core.run n s = .next t → State.xlen s = .x32 → 4 ≤ k → k < 8 →
    fieldOf (State.pmpcfg6 t) k = fieldOf (State.pmpcfg6 s) k

/-- R32, R33: every step keeps the program counter and the general registers `XLEN`-bit values. -/
def Obligations.StepKeepsWidths : Prop :=
  ∀ s t : State, WidthsOk s → step s = .next t → WidthsOk t

/-- R33, R60: a step that gives a next state was made at a 4-byte-aligned pc and leaves one. That a misaligned pc stops
is the model's choice (log 18). -/
def Obligations.StepKeepsPcAligned : Prop :=
  ∀ s t : State, step s = .next t → PcAligned s ∧ PcAligned t

/-- The canonical form of memory is kept by every step and by placing an instruction word (log 17, log 23). -/
def Obligations.MemoryStaysCanonical : Prop :=
  ∀ s : State, MemoryOk s →
    (∀ t, step s = .next t → MemoryOk t) ∧ ∀ n w, MemoryOk (s.withFetchWord n w)

/-- The invariants hold at State.reset. The values there are the model's choices of log 1 to 6, 12, 14, 15, 17. -/
def Obligations.ResetMeetsInvariants : Prop :=
  FieldsLegal State.reset ∧ WidthsOk State.reset ∧ PcAligned State.reset ∧ MemoryOk State.reset

/-- R100: the reset step takes the draw as it is, and every field of a lawful draw is legal; nothing else changes. -/
def Obligations.ResetTakesAnyLegalDraw : Prop :=
  ∀ (s : State) (draw : BitVec 64), legalDraw s.config draw = true →
    (resetWith draw s).pmpcfg6 = draw ∧ FieldsLegal (resetWith draw s) ∧ (resetWith draw s).pc = s.pc ∧
    (∀ j, (resetWith draw s).readReg j = s.readReg j) ∧ Untouched s (resetWith draw s)

/-! The memory check. -/

/-- R42, R44, R90: an access decided by the entry of field `k`, all of whose bytes it matches, causes the Access Fault of
its kind exactly when the checks apply (not M-mode, or locked) and the bit of its kind is clear. An access other
than a fetch that is made in M-mode with MPRV set is checked in the mode MPP, every other one in the current mode. That
the fault carries the address of the access's first byte is the model's choice (log 27). -/
def Obligations.DecidedAccessFaultsWhenBitClear : Prop :=
  ∀ (s : State) (kind : AccessKind) (addr size k : Nat), k < 8 → hasPmpcfg6 s.config = true →
    inSpace s.xlen addr size = true → s.decidingEntry addr size = some (24 + k) →
    (∀ z, addr ≤ z → z < addr + size → s.matchesByte (24 + k) z = true) →
    let b := fieldOf s.pmpcfg6 k
    let m := if kind ≠ .fetch ∧ s.mode = .machine ∧ s.mprv = true then s.mpp else s.mode
    let applied := m ≠ .machine ∨ b.getLsbD 7 = true
    (kind = .fetch → s.accessCheck kind addr size =
      if applied ∧ b.getLsbD 2 = false then some (.instructionAccessFault (BitVec.ofNat 64 addr)) else none) ∧
    (kind = .load ∨ kind = .loadReserved → s.accessCheck kind addr size =
      if applied ∧ b.getLsbD 0 = false then some (.loadAccessFault (BitVec.ofNat 64 addr)) else none) ∧
    (kind = .store ∨ kind = .amo ∨ kind = .storeConditional → s.accessCheck kind addr size =
      if applied ∧ b.getLsbD 1 = false then some (.storeAmoAccessFault (BitVec.ofNat 64 addr)) else none)

/-- R43, at granularity 0: which bytes an entry matches, by the number in bits 4:3 of its configuration byte. -/
def Obligations.RegionByMatchingMode : Prop :=
  ∀ (s : State) (i z : Nat), s.config.grain = 0 →
    let b := s.entryCfg i
    let a := s.pmpaddrOf i
    let n := pmpaddrBits s.xlen
    (b.toNat / 8 % 4 = 0 → s.matchesByte i z = false) ∧
    (b.toNat / 8 % 4 = 1 →
      (s.matchesByte i z = true ↔ (if i = 0 then 0 else s.pmpaddrOf (i - 1) * 4) ≤ z ∧ z < a * 4)) ∧
    (b.toNat / 8 % 4 = 2 → (s.matchesByte i z = true ↔ a * 4 ≤ z ∧ z < a * 4 + 4)) ∧
    (b.toNat / 8 % 4 = 3 → ∀ t, (∀ j < t, a.testBit j = true) → a.testBit t = false →
      (s.matchesByte i z = true ↔
        a / 2 ^ (t + 1) * 2 ^ (t + 1) * 4 ≤ z ∧ z < a / 2 ^ (t + 1) * 2 ^ (t + 1) * 4 + 2 ^ (t + 3))) ∧
    (b.toNat / 8 % 4 = 3 → a = 2 ^ n - 1 → z < 2 ^ addrBits s.xlen → s.matchesByte i z = true)

/-- R43, R46 at any granularity `G`: a TOR entry matches between the two address registers with their low `G` bits
dropped, so its ends are multiples of `2^(G+2)`; a NAPOT entry matches the region of its address register with the low
`G-1` bits ones, a power of two of at least `2^(G+2)` bytes, aligned to its size; OFF matches nothing. NA4 is left out:
R46 says it cannot be selected with `G >= 1`. That the matching takes the register as R46 says it reads is the model's
(log 15). -/
def Obligations.GranularityBoundsRegions : Prop :=
  ∀ (s : State) (i z : Nat),
    let b := s.entryCfg i
    let a := s.pmpaddrOf i
    let n := pmpaddrBits s.xlen
    let G := s.config.grain
    let v := a ||| (2 ^ (G - 1) - 1)
    (b.toNat / 8 % 4 = 0 → s.matchesByte i z = false) ∧
    (b.toNat / 8 % 4 = 1 →
      (s.matchesByte i z = true ↔
        (if i = 0 then 0 else s.pmpaddrOf (i - 1) / 2 ^ G * 2 ^ G * 4) ≤ z ∧ z < a / 2 ^ G * 2 ^ G * 4) ∧
      (s.region i).1 % 2 ^ (G + 2) = 0 ∧ (s.region i).2 % 2 ^ (G + 2) = 0) ∧
    (b.toNat / 8 % 4 = 3 → G ≤ n →
      (∀ t, (∀ j < t, v.testBit j = true) → v.testBit t = false →
        (s.matchesByte i z = true ↔
          v / 2 ^ (t + 1) * 2 ^ (t + 1) * 4 ≤ z ∧ z < v / 2 ^ (t + 1) * 2 ^ (t + 1) * 4 + 2 ^ (t + 3))) ∧
      (v = 2 ^ n - 1 → z < 2 ^ addrBits s.xlen → s.matchesByte i z = true) ∧
      ∃ e, G + 2 ≤ e ∧ (s.region i).2 = (s.region i).1 + 2 ^ e ∧ (s.region i).1 % 2 ^ e = 0)

/-- R44: the deciding entry is the lowest-numbered of the 64 that matches any byte of the access. -/
def Obligations.LowestMatchingEntryDecides : Prop :=
  ∀ (s : State) (addr size i : Nat),
    s.decidingEntry addr size = some i ↔
      i < 64 ∧ (∃ z, addr ≤ z ∧ z < addr + size ∧ s.matchesByte i z = true) ∧
      ∀ j < i, ∀ z, addr ≤ z → z < addr + size → s.matchesByte j z = false

/-- R44 (the reading of log 16 for M-mode): an access whose deciding entry does not match every byte fails in every
mode, whatever L, R, W and X hold. -/
def Obligations.PartialMatchFails : Prop :=
  ∀ (s : State) (m : Mode) (kind : AccessKind) (addr size i z : Nat), s.config.smpmp ≠ none →
    s.decidingEntry addr size = some i → addr ≤ z → z < addr + size → s.matchesByte i z = false →
    s.pmpAllows m kind addr size = false

/-- R44: when no entry matches any byte, M-mode is allowed and every other mode fails. That a machine without Smpmp makes
no check, and is left out here, is the model's choice (log 12). -/
def Obligations.NoMatchAllowsMachineOnly : Prop :=
  ∀ (s : State) (m : Mode) (kind : AccessKind) (addr size : Nat), s.config.smpmp ≠ none →
    (∀ i < 64, ∀ z, addr ≤ z → z < addr + size → s.matchesByte i z = false) →
    s.pmpAllows m kind addr size = decide (m = .machine)

/-- R45: bits 6:5 of the fields are read by no check, neither that of an access nor that of a page-table read. -/
def Obligations.ReservedBitsUnreadByChecks : Prop :=
  ∀ (s : State) (d : BitVec 64) (kind : AccessKind) (addr size : Nat) (orig : BitVec 64),
    (∀ k < 8, fieldOf d k &&& 0x9F#8 = fieldOf s.pmpcfg6 k &&& 0x9F#8) →
    (resetWith d s).accessCheck kind addr size = s.accessCheck kind addr size ∧
    (resetWith d s).pageTableCheck kind orig addr size = s.pageTableCheck kind orig addr size

/-- R90: a fetch decided by the entry of a field whose X bit is clear executes nothing: the step is the instruction
access fault, outside M-mode for any such field and in M-mode for a locked one. That the step checks its fetch and what
address the fault carries are the model's (log 19, log 27). -/
def Obligations.FetchWithoutExecuteFaults : Prop :=
  ∀ (s : State) (k : Nat), k < 8 → hasPmpcfg6 s.config = true → inSpace s.xlen s.fetchAddr 4 = true →
    s.decidingEntry s.fetchAddr 4 = some (24 + k) → bitX (fieldOf s.pmpcfg6 k) = false →
    s.mode ≠ .machine ∨ locked (fieldOf s.pmpcfg6 k) = true →
    step s = .fault (.instructionAccessFault (BitVec.ofNat 64 s.fetchAddr)) ∧
    causeCode (.instructionAccessFault (BitVec.ofNat 64 s.fetchAddr)) = some 1

/-- R40, R64, R30: a fetched CSR instruction on another register raises illegal instruction in every mode whose encoding
(R96) is below bits 9:8 of the number, in any mode where the number is read-only and the instruction writes, and on
`pmpcfg7` at `XLEN = 64`. That the model raises here although the register is outside the spec, and does so in the
virtualised modes, is log 21 and log 25. -/
def Obligations.OtherRegisterIllegalAccess : Prop :=
  ∀ (s : State) (w : BitVec 32), s.fetch = .ok w → opcodeField w = 0x73#7 → funct3Field w ≠ 0#3 →
    funct3Field w ≠ 4#3 → csrField w ≠ 0x3A6#12 →
    ((s.mode = .user ∨ s.mode = .virtualUser) ∧ (csrField w).toNat / 256 % 4 ≠ 0) ∨
      ((s.mode = .supervisor ∨ s.mode = .virtualSupervisor) ∧ 2 ≤ (csrField w).toNat / 256 % 4) ∨
      ((csrField w).toNat / 1024 = 3 ∧ (funct3Field w = 1#3 ∨ funct3Field w = 5#3 ∨ operandField w ≠ 0)) ∨
      (csrField w = 0x3A7#12 ∧ s.xlen = .x64) →
    step s = .fault (.illegalInstruction w)

/-- A page-table read decided by the entry of field `k` is checked as a load in supervisor mode, so L does not matter: it
passes exactly when the entry matches all its bytes and R is set; with no matching entry it fails. That it is checked so
is the model's deduction (log 28): R44 says only that its effective privilege is S or U. The fault is of the kind of the
original access (R94); that it carries that access's address is log 27, that a machine without Smpmp makes no check is
log 12. -/
def Obligations.PageTableReadIsSupervisorLoad : Prop :=
  ∀ (s : State) (kind : AccessKind) (addr : BitVec 64) (pte size : Nat), s.config.smpmp ≠ none →
    inSpace s.xlen pte size = true →
    let denied : Option Fault :=
      if kind = .fetch then some (.instructionAccessFault addr)
      else if kind = .load ∨ kind = .loadReserved then some (.loadAccessFault addr)
      else some (.storeAmoAccessFault addr)
    (∀ k < 8, hasPmpcfg6 s.config = true → s.decidingEntry pte size = some (24 + k) →
      ((∀ z, pte ≤ z → z < pte + size → s.matchesByte (24 + k) z = true) →
        s.pageTableCheck kind addr pte size =
          if (fieldOf s.pmpcfg6 k).getLsbD 0 = true then none else denied) ∧
      (∀ z, pte ≤ z → z < pte + size → s.matchesByte (24 + k) z = false →
        s.pageTableCheck kind addr pte size = denied)) ∧
    ((∀ i < 64, ∀ z, pte ≤ z → z < pte + size → s.matchesByte i z = false) →
      s.pageTableCheck kind addr pte size = denied)
end

