-- ==== Sys2Proof/Laws/State.lean ====
section
/-! SUPPORT. What each update of the state leaves unchanged: one lemma per field per update. -/

namespace Sys2Proof.Machine

open Sys2Proof

/-! `State.writePmpcfg6` writes `pmpcfg6` only. -/

@[simp] theorem State.writePmpcfg6_regs (s : State) (v : XWord) : (s.writePmpcfg6 v).regs = s.regs := rfl
@[simp] theorem State.writePmpcfg6_pc (s : State) (v : XWord) : (s.writePmpcfg6 v).pc = s.pc := rfl
@[simp] theorem State.writePmpcfg6_mode (s : State) (v : XWord) : (s.writePmpcfg6 v).mode = s.mode := rfl
@[simp] theorem State.writePmpcfg6_xlen (s : State) (v : XWord) : (s.writePmpcfg6 v).xlen = s.xlen := rfl
@[simp] theorem State.writePmpcfg6_config (s : State) (v : XWord) : (s.writePmpcfg6 v).config = s.config := rfl
@[simp] theorem State.writePmpcfg6_pmpaddr (s : State) (v : XWord) : (s.writePmpcfg6 v).pmpaddr = s.pmpaddr := rfl
@[simp] theorem State.writePmpcfg6_lowCfg (s : State) (v : XWord) : (s.writePmpcfg6 v).lowCfg = s.lowCfg := rfl
@[simp] theorem State.writePmpcfg6_highCfg (s : State) (v : XWord) : (s.writePmpcfg6 v).highCfg = s.highCfg := rfl
@[simp] theorem State.writePmpcfg6_mprv (s : State) (v : XWord) : (s.writePmpcfg6 v).mprv = s.mprv := rfl
@[simp] theorem State.writePmpcfg6_mpp (s : State) (v : XWord) : (s.writePmpcfg6 v).mpp = s.mpp := rfl
@[simp] theorem State.writePmpcfg6_mem (s : State) (v : XWord) : (s.writePmpcfg6 v).mem = s.mem := rfl

/-! `State.writeReg` writes `regs` only. -/

@[simp] theorem State.writeReg_pmpcfg6 (s : State) (i : Nat) (v : XWord) : (s.writeReg i v).pmpcfg6 = s.pmpcfg6 := by unfold State.writeReg; split <;> rfl
@[simp] theorem State.writeReg_pc (s : State) (i : Nat) (v : XWord) : (s.writeReg i v).pc = s.pc := by unfold State.writeReg; split <;> rfl
@[simp] theorem State.writeReg_mode (s : State) (i : Nat) (v : XWord) : (s.writeReg i v).mode = s.mode := by unfold State.writeReg; split <;> rfl
@[simp] theorem State.writeReg_xlen (s : State) (i : Nat) (v : XWord) : (s.writeReg i v).xlen = s.xlen := by unfold State.writeReg; split <;> rfl
@[simp] theorem State.writeReg_config (s : State) (i : Nat) (v : XWord) : (s.writeReg i v).config = s.config := by unfold State.writeReg; split <;> rfl
@[simp] theorem State.writeReg_pmpaddr (s : State) (i : Nat) (v : XWord) : (s.writeReg i v).pmpaddr = s.pmpaddr := by unfold State.writeReg; split <;> rfl
@[simp] theorem State.writeReg_lowCfg (s : State) (i : Nat) (v : XWord) : (s.writeReg i v).lowCfg = s.lowCfg := by unfold State.writeReg; split <;> rfl
@[simp] theorem State.writeReg_highCfg (s : State) (i : Nat) (v : XWord) : (s.writeReg i v).highCfg = s.highCfg := by unfold State.writeReg; split <;> rfl
@[simp] theorem State.writeReg_mprv (s : State) (i : Nat) (v : XWord) : (s.writeReg i v).mprv = s.mprv := by unfold State.writeReg; split <;> rfl
@[simp] theorem State.writeReg_mpp (s : State) (i : Nat) (v : XWord) : (s.writeReg i v).mpp = s.mpp := by unfold State.writeReg; split <;> rfl
@[simp] theorem State.writeReg_mem (s : State) (i : Nat) (v : XWord) : (s.writeReg i v).mem = s.mem := by unfold State.writeReg; split <;> rfl

/-! `State.advancePc` writes `pc` only. -/

@[simp] theorem State.advancePc_pmpcfg6 (s : State) : s.advancePc.pmpcfg6 = s.pmpcfg6 := rfl
@[simp] theorem State.advancePc_regs (s : State) : s.advancePc.regs = s.regs := rfl
@[simp] theorem State.advancePc_mode (s : State) : s.advancePc.mode = s.mode := rfl
@[simp] theorem State.advancePc_xlen (s : State) : s.advancePc.xlen = s.xlen := rfl
@[simp] theorem State.advancePc_config (s : State) : s.advancePc.config = s.config := rfl
@[simp] theorem State.advancePc_pmpaddr (s : State) : s.advancePc.pmpaddr = s.pmpaddr := rfl
@[simp] theorem State.advancePc_lowCfg (s : State) : s.advancePc.lowCfg = s.lowCfg := rfl
@[simp] theorem State.advancePc_highCfg (s : State) : s.advancePc.highCfg = s.highCfg := rfl
@[simp] theorem State.advancePc_mprv (s : State) : s.advancePc.mprv = s.mprv := rfl
@[simp] theorem State.advancePc_mpp (s : State) : s.advancePc.mpp = s.mpp := rfl
@[simp] theorem State.advancePc_mem (s : State) : s.advancePc.mem = s.mem := rfl

/-! `State.withFetchWord` writes `mem` only. -/

@[simp] theorem State.withFetchWord_pmpcfg6 (s : State) (n w : Nat) : (s.withFetchWord n w).pmpcfg6 = s.pmpcfg6 := rfl
@[simp] theorem State.withFetchWord_regs (s : State) (n w : Nat) : (s.withFetchWord n w).regs = s.regs := rfl
@[simp] theorem State.withFetchWord_pc (s : State) (n w : Nat) : (s.withFetchWord n w).pc = s.pc := rfl
@[simp] theorem State.withFetchWord_mode (s : State) (n w : Nat) : (s.withFetchWord n w).mode = s.mode := rfl
@[simp] theorem State.withFetchWord_xlen (s : State) (n w : Nat) : (s.withFetchWord n w).xlen = s.xlen := rfl
@[simp] theorem State.withFetchWord_config (s : State) (n w : Nat) : (s.withFetchWord n w).config = s.config := rfl
@[simp] theorem State.withFetchWord_pmpaddr (s : State) (n w : Nat) : (s.withFetchWord n w).pmpaddr = s.pmpaddr := rfl
@[simp] theorem State.withFetchWord_lowCfg (s : State) (n w : Nat) : (s.withFetchWord n w).lowCfg = s.lowCfg := rfl
@[simp] theorem State.withFetchWord_highCfg (s : State) (n w : Nat) : (s.withFetchWord n w).highCfg = s.highCfg := rfl
@[simp] theorem State.withFetchWord_mprv (s : State) (n w : Nat) : (s.withFetchWord n w).mprv = s.mprv := rfl
@[simp] theorem State.withFetchWord_mpp (s : State) (n w : Nat) : (s.withFetchWord n w).mpp = s.mpp := rfl

/-! `resetWith` writes `pmpcfg6` only. -/

@[simp] theorem resetWith_pmpcfg6 (d : BitVec 64) (s : State) : (resetWith d s).pmpcfg6 = d := rfl
@[simp] theorem resetWith_regs (d : BitVec 64) (s : State) : (resetWith d s).regs = s.regs := rfl
@[simp] theorem resetWith_pc (d : BitVec 64) (s : State) : (resetWith d s).pc = s.pc := rfl
@[simp] theorem resetWith_mode (d : BitVec 64) (s : State) : (resetWith d s).mode = s.mode := rfl
@[simp] theorem resetWith_xlen (d : BitVec 64) (s : State) : (resetWith d s).xlen = s.xlen := rfl
@[simp] theorem resetWith_config (d : BitVec 64) (s : State) : (resetWith d s).config = s.config := rfl
@[simp] theorem resetWith_pmpaddr (d : BitVec 64) (s : State) : (resetWith d s).pmpaddr = s.pmpaddr := rfl
@[simp] theorem resetWith_lowCfg (d : BitVec 64) (s : State) : (resetWith d s).lowCfg = s.lowCfg := rfl
@[simp] theorem resetWith_highCfg (d : BitVec 64) (s : State) : (resetWith d s).highCfg = s.highCfg := rfl
@[simp] theorem resetWith_mprv (d : BitVec 64) (s : State) : (resetWith d s).mprv = s.mprv := rfl
@[simp] theorem resetWith_mpp (d : BitVec 64) (s : State) : (resetWith d s).mpp = s.mpp := rfl
@[simp] theorem resetWith_mem (d : BitVec 64) (s : State) : (resetWith d s).mem = s.mem := rfl

/-! The written field of each update. -/

@[simp] theorem State.writePmpcfg6_pmpcfg6 (s : State) (v : XWord) :
    (s.writePmpcfg6 v).pmpcfg6 = writtenValue s.config.pmpGranularity s.xlen s.pmpcfg6 v := rfl

@[simp] theorem State.advancePc_pc (s : State) : s.advancePc.pc = truncX s.xlen (s.pc + 4#64) := rfl

@[simp] theorem State.withFetchWord_mem (s : State) (n w : Nat) :
    (s.withFetchWord n w).mem = Memory.writeWord s.mem s.fetchAddr (tableWord n w) := rfl

/-! Views that an update of another field leaves unchanged. -/

@[simp] theorem State.writePmpcfg6_readReg (s : State) (v : XWord) (i : Nat) :
    (s.writePmpcfg6 v).readReg i = s.readReg i := rfl

@[simp] theorem State.advancePc_readReg (s : State) (i : Nat) : s.advancePc.readReg i = s.readReg i := rfl

@[simp] theorem State.advancePc_readPmpcfg6 (s : State) : s.advancePc.readPmpcfg6 = s.readPmpcfg6 := rfl

@[simp] theorem State.writeReg_readPmpcfg6 (s : State) (i : Nat) (v : XWord) :
    (s.writeReg i v).readPmpcfg6 = s.readPmpcfg6 := by simp [State.readPmpcfg6]

end Sys2Proof.Machine
end

