-- ==== Sys2Proof/Laws/Registers.lean ====
section
/-! SUPPORT. Values of the width in force and the general registers (R5, R8, R32). -/

namespace Sys2Proof.Machine

open Sys2Proof

/-- A truncated value is an `XLEN`-bit value. -/
theorem truncX_lt (x : Xlen) (v : XWord) : (truncX x v).toNat < 2 ^ x.bits := by
  cases x
  · simp only [truncX, Xlen.bits, BitVec.toNat_setWidth]; omega
  · exact v.isLt

/-- Truncation computes the value modulo `2^XLEN`. -/
theorem truncX_toNat (x : Xlen) (v : XWord) : (truncX x v).toNat = v.toNat % 2 ^ x.bits := by
  cases x
  · simp only [truncX, Xlen.bits, BitVec.toNat_setWidth]; omega
  · exact (Nat.mod_eq_of_lt v.isLt).symm

/-- An `XLEN`-bit value is its own truncation. -/
theorem truncX_of_lt {x : Xlen} {v : XWord} (h : v.toNat < 2 ^ x.bits) : truncX x v = v := by
  apply BitVec.eq_of_toNat_eq
  rw [truncX_toNat, Nat.mod_eq_of_lt h]

@[simp] theorem truncX_idem (x : Xlen) (v : XWord) : truncX x (truncX x v) = truncX x v :=
  truncX_of_lt (truncX_lt x v)

@[simp] theorem readReg_zero (s : State) : s.readReg 0 = 0#64 := rfl

@[simp] theorem writeReg_zero (s : State) (v : XWord) : s.writeReg 0 v = s := rfl

/-- A register other than `x0` reads back what was written, at the width in force. -/
theorem readReg_writeReg_same (s : State) (v : XWord) {i : Nat} (h0 : i ≠ 0) (h : i < 32) :
    (s.writeReg i v).readReg i = truncX s.xlen v := by
  have hi : i - 1 < 31 := by omega
  simp [State.readReg, State.writeReg, h0, hi]

/-- The other registers keep their values. -/
theorem readReg_writeReg_other (s : State) (v : XWord) {i j : Nat} (h : j ≠ i) :
    (s.writeReg i v).readReg j = s.readReg j := by
  by_cases hj : j = 0
  · simp [hj]
  · by_cases hi : i = 0
    · simp [hi]
    · have hne : i - 1 ≠ j - 1 := by omega
      simp [State.readReg, State.writeReg, hi, hj, Vector.getElem?_setIfInBounds_ne hne]

/-- The immediate is the number itself (R63). -/
theorem uimmValue_toNat {u : Nat} (h : u < 32) : (uimmValue u).toNat = u := by
  simp only [uimmValue, BitVec.toNat_setWidth, BitVec.toNat_ofNat]; omega

end Sys2Proof.Machine
end

