-- ==== Sys2Proof/Laws/Fields.lean ====
section
/-! SUPPORT. The eight fields of the register as bytes (R15, R72) and the cases of the write rule (R71). -/

namespace Sys2Proof.Machine

open Sys2Proof

/-- Bit `i` of field `k` is bit `8k + i` of the register. -/
theorem fieldOf_getLsbD (v : BitVec 64) (k i : Nat) :
    (fieldOf v k).getLsbD i = (decide (i < 8) && v.getLsbD (8 * k + i)) := by
  simp [fieldOf, BitVec.getLsbD_extractLsb']

/-- Byte `k` of eight joined bytes is the byte joined there. -/
theorem fieldOf_joinFields (f : Nat → Byte) {k : Nat} (h : k < 8) : fieldOf (joinFields f) k = f k := by
  apply BitVec.eq_of_getLsbD_eq
  intro i hi
  rw [fieldOf_getLsbD]
  interval_cases k <;> interval_cases i <;> simp [joinFields]

/-- Two register values with equal fields are equal: the fields tile the 64 bits (R15). -/
theorem eq_of_fields {u v : BitVec 64} (h : ∀ k < 8, fieldOf u k = fieldOf v k) : u = v := by
  apply BitVec.eq_of_getLsbD_eq
  intro i hi
  have hk := congrArg (fun b => b.getLsbD (i % 8)) (h (i / 8) (by omega))
  simp only [fieldOf_getLsbD] at hk
  have : 8 * (i / 8) + i % 8 = i := by omega
  simpa [this, Nat.mod_lt] using hk

/-- The write rule keeps the old byte or accepts the new one with the old bits 6:5, and accepts only a legal
byte into an unlocked field in reach. -/
theorem writeField_cases (P k : Nat) (old new : Byte) (x : Xlen) :
    writeField P k old new x = old ∨
    (writeField P k old new x = (new &&& 0x9F#8) ||| (old &&& 0x60#8) ∧ locked old = false ∧
      legal P new = true ∧ (k < 4 ∨ x = .x64)) := by
  unfold writeField
  split
  · exact .inl rfl
  split
  · exact .inl rfl
  split
  · exact .inl rfl
  split
  · exact .inl rfl
  · rename_i hr hl hp hn
    refine .inr ⟨rfl, by simpa using hl, ?_, ?_⟩
    · cases h : na4Ok P <;> simp_all [legal]
    · by_cases hk : 4 ≤ k
      · exact .inr (by simpa [hk] using hr)
      · exact .inl (by omega)

/-- A field in reach, unlocked and offered a legal byte takes it, with the old bits 6:5. -/
theorem writeField_accepts {P k : Nat} {old new : Byte} {x : Xlen} (hk : k < 4 ∨ x = .x64)
    (hl : locked old = false) (hg : legal P new = true) :
    writeField P k old new x = (new &&& 0x9F#8) ||| (old &&& 0x60#8) := by
  have h1 : ¬(4 ≤ k ∧ x ≠ .x64) := by
    rintro ⟨h4, hx⟩
    exact hk.elim (fun h => by omega) hx
  cases hn : na4Ok P <;> cases hp : reservedPair new <;> cases ha : asksNa4 new <;>
    simp_all [writeField, legal]

/-- What a byte accepted by the write rule keeps of the old byte and takes from the new one. -/
theorem accepted_bits (new old : Byte) :
    reservedBits ((new &&& 0x9F#8) ||| (old &&& 0x60#8)) = reservedBits old ∧
    locked ((new &&& 0x9F#8) ||| (old &&& 0x60#8)) = locked new ∧
    reservedPair ((new &&& 0x9F#8) ||| (old &&& 0x60#8)) = reservedPair new ∧
    asksNa4 ((new &&& 0x9F#8) ||| (old &&& 0x60#8)) = asksNa4 new := by
  have h1 : ((new &&& 0x9F#8) ||| (old &&& 0x60#8)) &&& 0x60#8 = old &&& 0x60#8 := by
    ext i hi; interval_cases i <;> simp
  have h2 : ((new &&& 0x9F#8) ||| (old &&& 0x60#8)) &&& 0x80#8 = new &&& 0x80#8 := by
    ext i hi; interval_cases i <;> simp
  have h3 : ((new &&& 0x9F#8) ||| (old &&& 0x60#8)) &&& 0x1#8 = new &&& 0x1#8 := by
    ext i hi; interval_cases i <;> simp
  have h4 : ((new &&& 0x9F#8) ||| (old &&& 0x60#8)) &&& 0x2#8 = new &&& 0x2#8 := by
    ext i hi; interval_cases i <;> simp
  have h5 : ((new &&& 0x9F#8) ||| (old &&& 0x60#8)) &&& 0x18#8 = new &&& 0x18#8 := by
    ext i hi; interval_cases i <;> simp
  exact ⟨h1, by simp only [locked, h2], by simp only [reservedPair, h3, h4], by simp only [asksNa4, h5]⟩

end Sys2Proof.Machine
end

