-- ==== Sys2Proof/Laws/Memory.lean ====
section
/-! SUPPORT. Memory: a byte reads back what was written, other bytes stay, and the canonical form is kept. -/

namespace Sys2Proof.Machine

open Sys2Proof

theorem reset_memory_wf : Memory.wf State.reset.mem := List.Pairwise.nil

/-- A written byte reads back. -/
theorem read_write_same (m : Memory) (a : Nat) (v : Byte) : Memory.read (Memory.write m a v) a = some v := by
  induction m with
  | nil => simp [Memory.write, Memory.read]
  | cons c m ih =>
    unfold Memory.write
    split
    · simp [Memory.read]
    split
    · simp [Memory.read]
    · rename_i hne
      simp [Memory.read, hne, ih]

/-- A write leaves every other address alone, in a memory in canonical form or not. -/
theorem read_write_other (m : Memory) {a b : Nat} (v : Byte) (h : b ≠ a) :
    Memory.read (Memory.write m a v) b = Memory.read m b := by
  induction m with
  | nil => simp [Memory.write, Memory.read, h.symm]
  | cons c m ih =>
    unfold Memory.write
    split
    · simp [Memory.read, h.symm]
    split
    · rename_i he
      simp [Memory.read, he, h.symm]
    · by_cases hc : c.1 = b
      · simp [Memory.read, hc]
      · simp [Memory.read, hc, ih]

/-- Every address listed after a write is the written one or was listed before. -/
theorem mem_write {m : Memory} {a : Nat} {v : Byte} {c : Host.Cell} (h : c ∈ Memory.write m a v) :
    c.1 = a ∨ c ∈ m := by
  induction m with
  | nil => simp [Memory.write] at h; simp [h]
  | cons d m ih =>
    unfold Memory.write at h
    split at h
    · rcases List.mem_cons.mp h with rfl | h
      · exact .inl rfl
      · exact .inr h
    split at h
    · rcases List.mem_cons.mp h with rfl | h
      · exact .inl rfl
      · exact .inr (List.mem_cons_of_mem _ h)
    · rcases List.mem_cons.mp h with rfl | h
      · exact .inr (List.mem_cons_self ..)
      · exact (ih h).imp id (List.mem_cons_of_mem _)

/-- A write keeps the canonical form. -/
theorem write_wf {m : Memory} (a : Nat) (v : Byte) (h : Memory.wf m) : Memory.wf (Memory.write m a v) := by
  induction m with
  | nil => exact List.pairwise_singleton _ _
  | cons c m ih =>
    obtain ⟨hc, hm⟩ := List.pairwise_cons.mp h
    unfold Memory.write
    split
    · rename_i hlt
      refine List.pairwise_cons.mpr ⟨fun d hd => ?_, h⟩
      rcases List.mem_cons.mp hd with rfl | hd
      · exact hlt
      · exact Nat.lt_trans hlt (hc d hd)
    split
    · rename_i he
      exact List.pairwise_cons.mpr ⟨fun d hd => he ▸ hc d hd, hm⟩
    · rename_i hnlt hne
      refine List.pairwise_cons.mpr ⟨fun d hd => ?_, ih hm⟩
      rcases mem_write hd with h' | h'
      · show c.1 < d.1
        omega
      · exact hc d h'

/-- Storing an instruction word keeps the canonical form. -/
theorem writeWord_wf {m : Memory} (a : Nat) (w : BitVec 32) (h : Memory.wf m) : Memory.wf (Memory.writeWord m a w) :=
  write_wf _ _ (write_wf _ _ (write_wf _ _ (write_wf _ _ h)))

/-- The four bytes of a word make the word (R60). -/
theorem wordOfBytes_byteOfWord (w : BitVec 32) :
    wordOfBytes (byteOfWord w 0) (byteOfWord w 1) (byteOfWord w 2) (byteOfWord w 3) = w := by
  ext i hi
  interval_cases i <;> simp [wordOfBytes, byteOfWord]

/-- A stored instruction word reads back (R60). -/
theorem readWord_writeWord (m : Memory) (a : Nat) (w : BitVec 32) :
    Memory.readWord (Memory.writeWord m a w) a = some w := by
  simp [Memory.readWord, Memory.writeWord, read_write_same, read_write_other, wordOfBytes_byteOfWord]

/-- Storing an instruction word leaves every byte outside its four alone. -/
theorem read_writeWord_other (m : Memory) {a b : Nat} (w : BitVec 32) (h : b < a ∨ a + 4 ≤ b) :
    Memory.read (Memory.writeWord m a w) b = Memory.read m b := by
  unfold Memory.writeWord
  rw [read_write_other _ _ (by omega), read_write_other _ _ (by omega), read_write_other _ _ (by omega),
    read_write_other _ _ (by omega)]

end Sys2Proof.Machine
end

