-- ==== Sys2Proof/Laws/PerInstr.lean ====
section
/-! SUPPORT. One lemma per instruction: the fields of its word that the format fixes (R60, R61). -/

namespace Sys2Proof.Laws.Format

open Sys2Proof

/-- The CSR number in bits 31:20, the opcode in bits 6:0 and `11` in the two low bits. -/
def Statement (i : Instr) : Prop :=
  WellFormed i →
    csrField (encode i) = 0x3A6#12 ∧ opcodeField (encode i) = 0x73#7 ∧ encode i &&& 3#32 = 3#32

/-- A number below 32 has no bit from bit 5 on. -/
theorem ofNat_bit {n j : Nat} (h : n < 32) (h5 : 5 ≤ j) (hj : j < 32) : (BitVec.ofNat 32 n)[j] = false := by
  have ht : n.testBit j = false :=
    Nat.testBit_lt_two_pow (Nat.lt_of_lt_of_le h (Nat.pow_le_pow_right (n := 2) (by omega) h5))
  rw [← BitVec.getLsbD_eq_getElem, BitVec.getLsbD_ofNat]
  simp [ht]

theorem encodeFields_fixed {f op rd : Nat} (hf : f < 8) (ho : op < 32) (hr : rd < 32) :
    csrField (encodeFields f op rd) = 0x3A6#12 ∧ opcodeField (encodeFields f op rd) = 0x73#7 ∧
      encodeFields f op rd &&& 3#32 = 3#32 := by
  refine ⟨?_, ?_, ?_⟩
  · ext j hj
    have hf' : f < 32 := by omega
    interval_cases j <;> simp [csrField, encodeFields, ofNat_bit ho, ofNat_bit hr, ofNat_bit hf']
  · ext j hj
    interval_cases j <;> simp [opcodeField, encodeFields]
  · ext j hj
    interval_cases j <;> simp [encodeFields]

theorem csrrw (rd rs1 : Nat) : Statement (.csrrw rd rs1) := fun h => by
  simp only [WellFormed, Instr.wellFormed, isRegNum, Bool.and_eq_true, decide_eq_true_eq] at h
  exact encodeFields_fixed (by omega) h.2 h.1
theorem csrrs (rd rs1 : Nat) : Statement (.csrrs rd rs1) := fun h => by
  simp only [WellFormed, Instr.wellFormed, isRegNum, Bool.and_eq_true, decide_eq_true_eq] at h
  exact encodeFields_fixed (by omega) h.2 h.1
theorem csrrc (rd rs1 : Nat) : Statement (.csrrc rd rs1) := fun h => by
  simp only [WellFormed, Instr.wellFormed, isRegNum, Bool.and_eq_true, decide_eq_true_eq] at h
  exact encodeFields_fixed (by omega) h.2 h.1
theorem csrrwi (rd uimm : Nat) : Statement (.csrrwi rd uimm) := fun h => by
  simp only [WellFormed, Instr.wellFormed, isRegNum, isUimm, Bool.and_eq_true, decide_eq_true_eq] at h
  exact encodeFields_fixed (by omega) h.2 h.1
theorem csrrsi (rd uimm : Nat) : Statement (.csrrsi rd uimm) := fun h => by
  simp only [WellFormed, Instr.wellFormed, isRegNum, isUimm, Bool.and_eq_true, decide_eq_true_eq] at h
  exact encodeFields_fixed (by omega) h.2 h.1
theorem csrrci (rd uimm : Nat) : Statement (.csrrci rd uimm) := fun h => by
  simp only [WellFormed, Instr.wellFormed, isRegNum, isUimm, Bool.and_eq_true, decide_eq_true_eq] at h
  exact encodeFields_fixed (by omega) h.2 h.1

end Sys2Proof.Laws.Format
end

