-- ==== Sys2Proof/Laws/Step.lean ====
section
/-! SUPPORT. What an instruction and a step can do, said once (R33, R74 to R79, R91). -/

namespace Sys2Proof.Machine

open Sys2Proof

/-- The state after an instruction that had its effect: the register written with `v` or not at all, the value
before in `rd`, the pc advanced. -/
def afterCsr (rd : Nat) (written : Option XWord) (s : State) : State :=
  (((written.elim s s.writePmpcfg6)).writeReg rd s.readPmpcfg6).advancePc

theorem csrSwap_eq (rd : Nat) (v : XWord) (s : State) : csrSwap rd v s = afterCsr rd (some v) s := by
  by_cases h : rd = 0 <;> simp [csrSwap, afterCsr, h]

theorem csrModify_eq (rd : Nat) (w : Bool) (f : XWord → XWord) (s : State) :
    csrModify rd w f s = afterCsr rd (if w then some (f s.readPmpcfg6) else none) s := by
  cases w <;> rfl

theorem csrAccess_allowed {s : State} (h : s.canAccess = true) (w : BitVec 32) (f : State → State) :
    csrAccess w s f = .next (f s) := by simp [csrAccess, h]

theorem csrAccess_denied {s : State} (h : s.canAccess = false) (w : BitVec 32) (f : State → State) :
    csrAccess w s f = .fault (.illegalInstruction w) := by simp [csrAccess, h, raise]

/-- A next state of an access: the access was allowed and the effect happened. -/
theorem csrAccess_next {w : BitVec 32} {s t : State} {f : State → State} (h : csrAccess w s f = .next t) :
    s.canAccess = true ∧ t = f s := by
  unfold csrAccess at h
  split at h
  · rename_i ha
    exact ⟨ha, by injection h with h; exact h.symm⟩
  · cases h

/-! Each instruction as an access with its effect. -/

theorem exec_csrrw (rd rs1 : Nat) (s : State) : exec (.csrrw rd rs1) s =
    csrAccess (encode (.csrrw rd rs1)) s (fun s => afterCsr rd (some (s.readReg rs1)) s) := by
  simp only [exec, execCsrrw, csrSwap_eq]

theorem exec_csrrs (rd rs1 : Nat) (s : State) : exec (.csrrs rd rs1) s =
    csrAccess (encode (.csrrs rd rs1)) s (fun s => afterCsr rd (if rs1 != 0 then some (s.readPmpcfg6 ||| s.readReg rs1) else none) s) := by
  simp only [exec, execCsrrs, csrModify_eq]

theorem exec_csrrc (rd rs1 : Nat) (s : State) : exec (.csrrc rd rs1) s =
    csrAccess (encode (.csrrc rd rs1)) s (fun s => afterCsr rd (if rs1 != 0 then some (s.readPmpcfg6 &&& ~~~(s.readReg rs1)) else none) s) := by
  simp only [exec, execCsrrc, csrModify_eq]

theorem exec_csrrwi (rd uimm : Nat) (s : State) : exec (.csrrwi rd uimm) s =
    csrAccess (encode (.csrrwi rd uimm)) s (fun s => afterCsr rd (some (uimmValue uimm)) s) := by
  simp only [exec, execCsrrwi, csrSwap_eq]

theorem exec_csrrsi (rd uimm : Nat) (s : State) : exec (.csrrsi rd uimm) s =
    csrAccess (encode (.csrrsi rd uimm)) s (fun s => afterCsr rd (if uimm != 0 then some (s.readPmpcfg6 ||| uimmValue uimm) else none) s) := by
  simp only [exec, execCsrrsi, csrModify_eq]

theorem exec_csrrci (rd uimm : Nat) (s : State) : exec (.csrrci rd uimm) s =
    csrAccess (encode (.csrrci rd uimm)) s (fun s => afterCsr rd (if uimm != 0 then some (s.readPmpcfg6 &&& ~~~(uimmValue uimm)) else none) s) := by
  simp only [exec, execCsrrci, csrModify_eq]

/-- Everything a next state of an instruction can be. -/
theorem exec_next {i : Instr} {s t : State} (h : exec i s = .next t) :
    s.canAccess = true ∧ ∃ rd written, t = afterCsr rd written s := by
  cases i
  all_goals
    simp only [exec_csrrw, exec_csrrs, exec_csrrc, exec_csrrwi, exec_csrrsi, exec_csrrci] at h
    obtain ⟨ha, ht⟩ := csrAccess_next h
    exact ⟨ha, _, _, ht⟩

/-- What a fetched word says of the state. -/
theorem fetch_ok {s : State} {w : BitVec 32} (h : s.fetch = .ok w) :
    s.accessCheck .fetch s.fetchAddr 4 = none ∧ s.fetchAddr % 4 = 0 ∧
      Memory.readWord s.mem s.fetchAddr = some w := by
  unfold State.fetch at h
  split at h
  · cases h
  rename_i hc
  split at h
  · cases h
  rename_i ha
  split at h
  · rename_i hw
    cases h
    exact ⟨hc, by omega, hw⟩
  · cases h

/-- A word that is none of the six instructions gives no next state. -/
theorem rejectWord_not_next (s t : State) (r : Rejection) (w : BitVec 32) : s.rejectWord r w ≠ .next t := by
  intro h
  cases r <;> simp only [State.rejectWord] at h <;> first | cases h | (split at h <;> cases h)

/-- A next state of a step: a word was fetched, it decoded, and its instruction gave that state. -/
theorem step_next {s t : State} (h : step s = .next t) :
    ∃ w i, s.fetch = .ok w ∧ decode w = .ok i ∧ exec i s = .next t := by
  unfold step at h
  split at h
  · cases h
  split at h
  · rename_i w hw _ i hi
    exact ⟨w, i, hw, hi, h⟩
  · exact absurd h (rejectWord_not_next _ _ _ _)

/-! The fields after an instruction. -/

section
variable (rd : Nat) (written : Option XWord) (s : State)

@[simp] theorem afterCsr_pc : (afterCsr rd written s).pc = truncX s.xlen (s.pc + 4#64) := by
  cases written <;> simp [afterCsr]

@[simp] theorem afterCsr_mode : (afterCsr rd written s).mode = s.mode := by cases written <;> simp [afterCsr]
@[simp] theorem afterCsr_xlen : (afterCsr rd written s).xlen = s.xlen := by cases written <;> simp [afterCsr]
@[simp] theorem afterCsr_config : (afterCsr rd written s).config = s.config := by cases written <;> simp [afterCsr]
@[simp] theorem afterCsr_pmpaddr : (afterCsr rd written s).pmpaddr = s.pmpaddr := by cases written <;> simp [afterCsr]
@[simp] theorem afterCsr_lowCfg : (afterCsr rd written s).lowCfg = s.lowCfg := by cases written <;> simp [afterCsr]
@[simp] theorem afterCsr_highCfg : (afterCsr rd written s).highCfg = s.highCfg := by cases written <;> simp [afterCsr]
@[simp] theorem afterCsr_mprv : (afterCsr rd written s).mprv = s.mprv := by cases written <;> simp [afterCsr]
@[simp] theorem afterCsr_mpp : (afterCsr rd written s).mpp = s.mpp := by cases written <;> simp [afterCsr]
@[simp] theorem afterCsr_mem : (afterCsr rd written s).mem = s.mem := by cases written <;> simp [afterCsr]

@[simp] theorem afterCsr_pmpcfg6 : (afterCsr rd written s).pmpcfg6 =
    written.elim s.pmpcfg6 (writtenValue s.config.pmpGranularity s.xlen s.pmpcfg6) := by
  cases written <;> simp [afterCsr]

/-- The registers other than `rd` keep their values; `rd` gets the value before the write. -/
theorem afterCsr_readReg_other {j : Nat} (h : j ≠ rd) : (afterCsr rd written s).readReg j = s.readReg j := by
  cases written <;> simp [afterCsr, readReg_writeReg_other _ _ h]

theorem afterCsr_readReg_rd (h0 : rd ≠ 0) (h : rd < 32) :
    (afterCsr rd written s).readReg rd = s.readPmpcfg6 := by
  cases written <;> simp [afterCsr, readReg_writeReg_same _ _ h0 h, State.readPmpcfg6]

end

end Sys2Proof.Machine
end

