-- ==== Sys2Proof/Laws/Pmp.lean ====
section
/-! SUPPORT. The pieces of the memory check, each said once (R41 to R45). -/

namespace Sys2Proof.Machine

open Sys2Proof

/-- The bytes of an access. -/
theorem mem_bytesOf {addr size z : Nat} : z ∈ bytesOf addr size ↔ addr ≤ z ∧ z < addr + size := by
  simp only [bytesOf, List.mem_map, List.mem_range]
  constructor
  · rintro ⟨j, hj, rfl⟩
    omega
  · intro h
    exact ⟨z - addr, by omega, by omega⟩

/-- A byte is matched when it lies in the region. -/
theorem matchesByte_iff (s : State) (i z : Nat) :
    s.matchesByte i z = true ↔ (s.region i).1 ≤ z ∧ z < (s.region i).2 := by
  simp [State.matchesByte]

/-- An access that passes the check lies in the space and is allowed. -/
theorem accessCheck_eq_none {s : State} {kind : AccessKind} {addr size : Nat} :
    s.accessCheck kind addr size = none ↔
      inSpace s.xlen addr size = true ∧ s.pmpAllows (s.effectiveMode kind) kind addr size = true := by
  unfold State.accessCheck
  split
  · rename_i h1
    split
    · rename_i h2; simp [h1, h2]
    · rename_i h2; simp [h2]
  · rename_i h1; simp [h1]

/-- A page-table read that passes lies in the space and is allowed as a load in supervisor mode (R44). -/
theorem pageTableCheck_eq_none {s : State} {kind : AccessKind} {addr : BitVec 64} {pte size : Nat} :
    s.pageTableCheck kind addr pte size = none ↔
      inSpace s.xlen pte size = true ∧ s.pmpAllows .supervisor .load pte size = true := by
  unfold State.pageTableCheck
  split
  · rename_i h1
    split
    · rename_i h2; simp [h1, h2]
    · rename_i h2; simp [h2]
  · rename_i h1; simp [h1]

/-- Everything that makes an access to another register illegal (R40, R64, R30). -/
theorem otherCsrIllegal_iff (s : State) (w : BitVec 32) :
    s.otherCsrIllegal w = true ↔
      s.mode.privilege < csrLevel (csrField w) ∨ (csrReadOnly (csrField w) = true ∧ csrWrites w = true) ∨
        (csrField w = 0x3A7#12 ∧ s.xlen = .x64) := by
  simp [State.otherCsrIllegal, csrDenied, or_assoc]

/-- An instruction writes its register: `funct3` 001 and 101 always, the others with an operand number (R74 to R79). -/
theorem csrWrites_iff (w : BitVec 32) :
    csrWrites w = true ↔ funct3Field w = 1#3 ∨ funct3Field w = 5#3 ∨ operandField w ≠ 0 := by
  simp [csrWrites, or_assoc]

/-- The entry of field `k` of the register (R44, R45). -/
theorem entryCfg_field {s : State} (h : hasPmpcfg6 s.config = true) {k : Nat} (hk : k < 8) :
    s.entryCfg (24 + k) = fieldOf s.pmpcfg6 k := by
  unfold State.entryCfg
  rw [if_neg (by omega), if_pos (by omega), if_pos h, Nat.add_sub_cancel_left]

/-- The trailing ones of a number are ones, and the bit after them is not, when it is looked at. -/
theorem trailingOnes_spec (n a : Nat) :
    trailingOnes n a ≤ n ∧ (∀ j < trailingOnes n a, a.testBit j = true) ∧
      (trailingOnes n a < n → a.testBit (trailingOnes n a) = false) := by
  induction n generalizing a with
  | zero => simp [trailingOnes]
  | succ n ih =>
    by_cases h : a % 2 = 1
    · obtain ⟨h1, h2, h3⟩ := ih (a / 2)
      rw [show trailingOnes (n + 1) a = trailingOnes n (a / 2) + 1 by simp [trailingOnes, h]]
      refine ⟨by omega, fun j hj => ?_, fun hlt => ?_⟩
      · cases j with
        | zero => simp [Nat.testBit_zero, h]
        | succ j => rw [Nat.testBit_succ]; exact h2 j (by omega)
      · rw [Nat.testBit_succ]; exact h3 (by omega)
    · rw [show trailingOnes (n + 1) a = 0 by simp [trailingOnes, h]]
      simp [Nat.testBit_zero, h]

end Sys2Proof.Machine
end

