-- ==== Sys2Proof/Laws/Run.lean ====
section
/-! SUPPORT. What every step does holds over any number of steps: the induction, once. -/

namespace Sys2Proof.Machine

open Sys2Proof

/-- A relation that every step meets, that holds of a state and itself and composes, holds over any run. -/
theorem run_related {R : State → State → Prop} (refl : ∀ s, R s s) (trans : ∀ a b c, R a b → R b c → R a c)
    (one : ∀ s t, step s = .next t → R s t) (n : Nat) (s t : State) (h : Sys2Proof.core.run n s = .next t) :
    R s t := by
  induction n generalizing s with
  | zero =>
    have e : s = t := Host.Outcome.next.inj h
    exact e ▸ refl s
  | succ n ih =>
    simp only [Host.Core.run] at h
    split at h
    · rename_i u hu
      exact trans _ _ _ (one s u hu) (ih u h)
    · cases h
    · cases h

end Sys2Proof.Machine
end

