-- ==== Sys2Proof/Tests/Slice0.lean ====
section
/-! SUPPORT. Tests from the spec's own vectors (spec/95_test_vectors.md), the smoke test of the well-formedness
checks, and a witness for the hypotheses of every statement. -/

namespace Sys2Proof.Tests

open Sys2Proof Sys2Proof.Machine Sys2Proof.Safety

/-! ## Helpers -/

/-- A view of the next state, none where the outcome is a stop. -/
def view {α : Type} (o : Outcome) (f : State → α) : Option α :=
  match o with
  | .next s => some (f s)
  | .fault _ => none
  | .refused _ => none

/-- The fault of an outcome. -/
def faultOf (o : Outcome) : Option Fault :=
  match o with
  | .next _ => none
  | .fault f => some f
  | .refused _ => none

/-- The refusal of an outcome. -/
def refusalOf (o : Outcome) : Option Refusal :=
  match o with
  | .next _ => none
  | .fault _ => none
  | .refused r => some r

/-- An outcome with a view is a next state. -/
theorem next_of_view {α : Type} {o : Outcome} {f : State → α} {a : α} (h : view o f = some a) :
    ∃ t, o = .next t ∧ f t = a := by
  cases o with
  | next s => exact ⟨s, rfl, Option.some.inj h⟩
  | fault => cases h
  | refused => cases h

/-- An outcome with a fault is that fault. -/
theorem fault_of_faultOf {o : Outcome} {f : Fault} (h : faultOf o = some f) : o = .fault f := by
  cases o with
  | next => cases h
  | fault => exact congrArg _ (Option.some.inj h)
  | refused => cases h

/-- The state after reset with the granularity parameter, the register and `x5` set, as the vectors of part D. -/
def st (granularity : Nat) (cfg : BitVec 64) (x5 : XWord) : State :=
  { (State.reset.writeReg 5 x5) with
    pmpcfg6 := cfg, config := { State.reset.config with pmpGranularity := granularity } }

/-- The same at `XLEN = 32`. -/
def st32 (cfg : BitVec 64) (x5 : XWord) : State := { st 0 cfg x5 with xlen := .x32 }

/-- The same in another mode. -/
def inMode (m : Mode) (s : State) : State := { s with mode := m }

/-- A machine without the register. -/
def withoutRegister (s : State) : State := { s with config := { s.config with smpmp := none } }

/-- Register, `rd` and pc after an instruction. -/
def after (i : Instr) (rd : Nat) (s : State) : Option (BitVec 64 × XWord × XWord) :=
  view (exec i s) fun t => (t.pmpcfg6, t.readReg rd, t.pc)

/-! ## Well-formedness: an ill-formed term for each check (R60, R63) -/

theorem test_wf_accepts : WellFormed (.csrrw 31 31) ∧ WellFormed (.csrrci 31 31) := by decide
theorem test_wf_rd_register_form : ¬WellFormed (.csrrw 32 0) ∧ ¬WellFormed (.csrrs 32 0) ∧ ¬WellFormed (.csrrc 32 0) := by decide
theorem test_wf_rs1 : ¬WellFormed (.csrrw 0 32) ∧ ¬WellFormed (.csrrs 0 32) ∧ ¬WellFormed (.csrrc 0 32) := by decide
theorem test_wf_rd_immediate_form : ¬WellFormed (.csrrwi 32 0) ∧ ¬WellFormed (.csrrsi 32 0) ∧ ¬WellFormed (.csrrci 32 0) := by decide
theorem test_wf_uimm : ¬WellFormed (.csrrwi 0 32) ∧ ¬WellFormed (.csrrsi 0 32) ∧ ¬WellFormed (.csrrci 0 32) := by decide

/-! ## Decoding: words written out from the fields of R60 and R62 (csr, operand, funct3, rd, opcode) -/

/-- I2: csrrw x5, pmpcfg6, x5. -/
theorem test_decode_csrrw : decode 0b0011_1010_0110_00101_001_00101_1110011#32 = .ok (.csrrw 5 5) := by decide
/-- I4: csrrs x8, pmpcfg6, x0. -/
theorem test_decode_csrrs : decode 0b0011_1010_0110_00000_010_01000_1110011#32 = .ok (.csrrs 8 0) := by decide
/-- Program 3: csrrc x7, pmpcfg6, x5. -/
theorem test_decode_csrrc : decode 0b0011_1010_0110_00101_011_00111_1110011#32 = .ok (.csrrc 7 5) := by decide
/-- I11: csrrwi x5, pmpcfg6, 2. -/
theorem test_decode_csrrwi : decode 0b0011_1010_0110_00010_101_00101_1110011#32 = .ok (.csrrwi 5 2) := by decide
/-- I15: csrrsi x6, pmpcfg6, 0. -/
theorem test_decode_csrrsi : decode 0b0011_1010_0110_00000_110_00110_1110011#32 = .ok (.csrrsi 6 0) := by decide
/-- I17: csrrci x6, pmpcfg6, 24. -/
theorem test_decode_csrrci : decode 0b0011_1010_0110_11000_111_00110_1110011#32 = .ok (.csrrci 6 24) := by decide
/-- R64: funct3 000 and 100, another CSR, another opcode, a 16-bit word, too few bytes. -/
theorem test_decode_rejects :
    decode 0x3A600073#32 = .error .notCsr ∧ decode 0x3A604073#32 = .error .notCsr ∧
    decode 0x3A7FD073#32 = .error .otherCsr ∧ decode 0x00000013#32 = .error .otherOpcode ∧
    decode 0x3A629370#32 = .error .notThirtyTwoBit ∧ decodeBytes [0x73#8, 0x93#8, 0x62#8] = .error .truncated := by
  decide
/-- R60: the least significant byte lies lowest. -/
theorem test_decode_bytes :
    decodeBytes [0x73#8, 0x93#8, 0x62#8, 0x3A#8] = .ok (.csrrw 6 5, []) ∧
    encodeBytes (.csrrw 6 5) = [0x73#8, 0x93#8, 0x62#8, 0x3A#8] := by decide
/-- The words of the opcode table's rows with every free bit 0. -/
theorem test_decode_table_rows :
    decodeTableWord 32 0x3A601073 = some (.csrrw 0 0) ∧ decodeTableWord 32 0x3A602073 = some (.csrrs 0 0) ∧
    decodeTableWord 32 0x3A603073 = some (.csrrc 0 0) ∧ decodeTableWord 32 0x3A605073 = some (.csrrwi 0 0) ∧
    decodeTableWord 32 0x3A606073 = some (.csrrsi 0 0) ∧ decodeTableWord 32 0x3A607073 = some (.csrrci 0 0) := by
  decide

/-! ## One field: V1 to V34 -/

/-- One vector: k, XLEN, P, old, new, result. -/
def fieldVector (v : Nat × Xlen × Nat × Byte × Byte × Byte) : Bool :=
  writeField v.2.2.1 v.1 v.2.2.2.1 v.2.2.2.2.1 v.2.1 == v.2.2.2.2.2

theorem test_field_V1_V14 : ([(0, .x64, 0, 0x00, 0x1F, 0x1F), (0, .x64, 0, 0x00, 0x9F, 0x9F), (0, .x64, 0, 0x9F, 0x00, 0x9F),
    (0, .x64, 0, 0x80, 0x1F, 0x80), (0, .x64, 0, 0x1F, 0x80, 0x80), (0, .x64, 0, 0x00, 0x02, 0x00),
    (0, .x64, 0, 0x00, 0x06, 0x00), (0, .x64, 0, 0x00, 0x82, 0x00), (0, .x64, 0, 0x1B, 0x1A, 0x1B),
    (0, .x64, 0, 0x00, 0x03, 0x03), (0, .x64, 0, 0x00, 0x01, 0x01), (0, .x64, 0, 0x00, 0x04, 0x04),
    (0, .x64, 0, 0x00, 0x00, 0x00), (0, .x64, 0, 0x07, 0x00, 0x00)].all fieldVector) = true := by decide
theorem test_field_V15_V27 : ([(0, .x64, 0, 0x00, 0x11, 0x11), (0, .x64, 1, 0x00, 0x11, 0x11), (0, .x64, 2, 0x00, 0x11, 0x00),
    (0, .x64, 12, 0x00, 0x11, 0x00), (0, .x64, 2, 0x00, 0x17, 0x00), (0, .x64, 0, 0x00, 0x60, 0x00),
    (0, .x64, 0, 0x00, 0x7F, 0x1F), (0, .x64, 0, 0x60, 0x1F, 0x7F), (0, .x64, 0, 0x20, 0x9F, 0xBF),
    (0, .x64, 0, 0x00, 0xFF, 0x9F), (0, .x64, 2, 0x00, 0x0F, 0x0F), (0, .x64, 2, 0x00, 0x1F, 0x1F),
    (0, .x64, 2, 0x00, 0x97, 0x00)].all fieldVector) = true := by decide
theorem test_field_V28_V34 : ([(3, .x32, 0, 0x00, 0x1F, 0x1F), (4, .x32, 0, 0x00, 0x1F, 0x00), (5, .x32, 0, 0x00, 0x1F, 0x00),
    (7, .x32, 0, 0x00, 0x1F, 0x00), (4, .x64, 0, 0x00, 0x1F, 0x1F), (7, .x64, 0, 0x00, 0x1F, 0x1F),
    (7, .x64, 0, 0x80, 0x00, 0x80)].all fieldVector) = true := by decide

/-! ## The whole register: W1 to W13 and the reads -/

/-- One vector: XLEN, P, before, v, after. -/
def registerVector (v : Xlen × Nat × BitVec 64 × XWord × BitVec 64) : Bool :=
  writtenValue v.2.1 v.1 v.2.2.1 v.2.2.2.1 == v.2.2.2.2

theorem test_register_W1_W7 : ([
    (.x64, 0, 0x0, 0x1F1F1F1F1F1F1F1F, 0x1F1F1F1F1F1F1F1F), (.x32, 0, 0x0, 0x1F1F1F1F, 0x1F1F1F1F),
    (.x64, 0, 0x80, 0x0, 0x80), (.x64, 0, 0x8000000000000000, 0xFFFFFFFFFFFFFFFF, 0x809F9F9F9F9F9F9F),
    (.x64, 0, 0x0, 0xFFFFFFFFFFFFFFFF, 0x9F9F9F9F9F9F9F9F), (.x64, 2, 0x0, 0xFFFFFFFFFFFFFFFF, 0x9F9F9F9F9F9F9F9F),
    (.x64, 0, 0x0, 0x0102030405060708, 0x0100030405000708)].all registerVector) = true := by decide
theorem test_register_W8_W13 : ([
    (.x64, 0, 0x0, 0x090B0D0F11131517, 0x090B0D0F11131517), (.x64, 2, 0x0, 0x090B0D0F11131517, 0x090B0D0F00000000),
    (.x64, 0, 0x1F1F1F1F9F1F1F1F, 0x0, 0x9F000000), (.x32, 0, 0x1F1F1F1F9F1F1F1F, 0x0, 0x1F1F1F1F9F000000),
    (.x32, 0, 0x0000001F00000000, 0xFFFFFFFF, 0x0000001F9F9F9F9F),
    (.x64, 0, 0x6000000000000040, 0x9F0000000000001F, 0xFF0000000000005F)].all registerVector) = true := by decide
/-- The two reads of part C. -/
theorem test_read : (st 0 0x1F1F1F1F9F000000#64 0).readPmpcfg6 = 0x1F1F1F1F9F000000#64 ∧
    (st32 0x1F1F1F1F9F000000#64 0).readPmpcfg6 = 0x9F000000#64 := by decide

/-! ## Instructions: I1 to I21 -/

/-- I1, I2, I3. -/
theorem test_csrrw : after (.csrrw 6 5) 6 (st 0 0 0x9F) = some (0x9F, 0, 0x1004) ∧
    after (.csrrw 5 5) 5 (st 0 0x1F 0x9F) = some (0x9F, 0x1F, 0x1004) ∧
    after (.csrrw 7 0) 7 (st 0 0x099F 0) = some (0x9F, 0x099F, 0x1004) := by decide
/-- I4, I5, I6, I7. -/
theorem test_csrrs : after (.csrrs 8 0) 8 (st 0 0x9F 0) = some (0x9F, 0x9F, 0x1004) ∧
    after (.csrrs 0 5) 5 (st 0 0x1F 0x80) = some (0x9F, 0x80, 0x1004) ∧
    after (.csrrs 6 5) 6 (st 0 0x1B 0) = some (0x1B, 0x1B, 0x1004) ∧
    after (.csrrs 0 5) 0 (st 0 0x08 0x02) = some (0x08, 0, 0x1004) := by decide
/-- I20, I21. -/
theorem test_csrrs_width_and_mode : after (.csrrs 0 5) 0 (st32 0 0xFFFFFFFF) = some (0x9F9F9F9F, 0, 0x1004) ∧
    faultOf (exec (.csrrs 5 0) (inMode .user (st 0 0x9F 0))) = some (.illegalInstruction 0x3A6022F3) := by decide
/-- I8, I9, program 3's second step. -/
theorem test_csrrc : after (.csrrc 0 5) 5 (st 0 0x1B 0x01) = some (0x1B, 0x01, 0x1004) ∧
    after (.csrrc 0 5) 5 (st 0 0x9F 0x80) = some (0x9F, 0x80, 0x1004) ∧
    after (.csrrc 7 5) 7 (st32 0x1F1F1F1F8F0F0B09 0x8F0F0B09) = some (0x1F1F1F1F8F000000, 0x8F0F0B09, 0x1004) := by decide
/-- I10, I11, I12, I13. -/
theorem test_csrrwi : after (.csrrwi 0 31) 0 (st 0 0 0) = some (0x1F, 0, 0x1004) ∧
    after (.csrrwi 5 2) 5 (st 0 0x1F1F 0) = some (0x1F, 0x1F1F, 0x1004) ∧
    after (.csrrwi 0 17) 0 (st 0 0 0) = some (0x11, 0, 0x1004) ∧
    after (.csrrwi 0 17) 0 (st 2 0 0) = some (0, 0, 0x1004) := by decide
/-- I14, I15. -/
theorem test_csrrsi : after (.csrrsi 0 4) 0 (st 0 0x1B 0) = some (0x1F, 0, 0x1004) ∧
    after (.csrrsi 6 0) 6 (st 0 0x1B 0) = some (0x1B, 0x1B, 0x1004) := by decide
/-- I16, I17, I18, I19. -/
theorem test_csrrci : after (.csrrci 0 1) 0 (st 0 0x1B 0) = some (0x1B, 0, 0x1004) ∧
    after (.csrrci 6 24) 6 (st 0 0x1F 0) = some (0x07, 0x1F, 0x1004) ∧
    after (.csrrci 0 8) 0 (st 0 0x1F 0) = some (0x17, 0, 0x1004) ∧
    after (.csrrci 0 8) 0 (st 2 0x1F 0) = some (0x1F, 0, 0x1004) := by decide
/-- R33: the pc wraps at `2^XLEN`. -/
theorem test_pc_wraps :
    after (.csrrs 0 0) 0 { st32 0 0 with pc := 0xFFFFFFFC } = some (0, 0, 0) := by decide

/-! ## The permission test: M1 to M12 -/

/-- One vector: b, mode, kind, allowed. -/
def permissionVector (v : Byte × Mode × AccessKind × Bool) : Bool := entryAllows v.2.1 v.2.2.1 v.1 == v.2.2.2

theorem test_permission : ([(0x1F, .user, .load, true), (0x1B, .user, .fetch, false), (0x19, .supervisor, .store, false),
    (0x19, .user, .amo, false), (0x18, .user, .load, false), (0x18, .machine, .load, true), (0x18, .machine, .fetch, true),
    (0x98, .machine, .load, false), (0x98, .machine, .store, false), (0x9C, .machine, .fetch, true),
    (0x9C, .machine, .load, false), (0x7B, .user, .store, true)].all permissionVector) = true := by decide

/-! ## Steps -/

/-- A state with an instruction's word placed at the pc. -/
def placed (i : Instr) (s : State) : State := s.withFetchWord 32 (encode i).toNat

/-- Program 1, first step, from reset. -/
theorem test_step_csrrw : view (step (placed (.csrrw 6 5) (st 0 0 0x099F))) (fun t => (t.pmpcfg6, t.pc)) =
    some (0x099F, 0x1004) := by decide
/-- Program 4: the fetch is permitted by the entry of field 0 (9F, NAPOT over the whole space), then the access is illegal. -/
theorem test_step_program4 :
    faultOf (step (placed (.csrrs 5 0) (inMode .user (st 0 0x9F 0)))) = some (.illegalInstruction 0x3A6022F3) := by decide
/-- R44: in user mode with no matching entry the fetch fails. -/
theorem test_step_no_match :
    faultOf (step (placed (.csrrs 5 0) (inMode .user (st 0 0 0)))) = some (.instructionAccessFault 0x1000) := by decide
/-- From reset nothing is listed in memory: the first fetch stops (log 17, log 23). -/
theorem test_step_reset : faultOf (step State.reset) = some (.unwrittenMemory 0x1000) := by decide
/-- A misaligned pc and a pc outside the physical space (log 17, log 18). -/
theorem test_step_bad_pc :
    faultOf (step (placed (.csrrs 5 0) { st 0 0 0 with pc := 0x1002 })) = some (.misalignedFetch 0x1002) ∧
    faultOf (step { st 0 0 0 with pc := 0x0100000000000000 }) = some (.noSuchAddress 0x0100000000000000) := by decide
/-- R64: `pmpcfg7` (0x3A7) is illegal at `XLEN = 64` and outside this spec at `XLEN = 32`. -/
theorem test_step_pmpcfg7 :
    faultOf (step ((st 0 0 0).withFetchWord 32 0x3A7FD073)) = some (.illegalInstruction 0x3A7FD073) ∧
    refusalOf (step ((st32 0 0).withFetchWord 32 0x3A7FD073)) = some (.otherCsr 0x3A7) := by decide
/-- R64, R82: other words are refused by name. -/
theorem test_step_other_words :
    refusalOf (step ((st 0 0 0).withFetchWord 32 0x00000073)) = some (.notCsr 0x73) ∧
    refusalOf (step ((st 0 0 0).withFetchWord 32 0x00000013)) = some (.otherOpcode 0x13) ∧
    refusalOf (step ((st 0 0 0).withFetchWord 32 0x00000001)) = some (.notThirtyTwoBit 1) := by decide
/-- The rows of the table run as the first instruction after reset. -/
theorem test_step_rows :
    ([0x3A601073, 0x3A602073, 0x3A603073, 0x3A605073, 0x3A606073, 0x3A607073].all fun w =>
      view (step (State.reset.withFetchWord 32 w)) (fun t => t.pc) == some 0x1004) = true := by decide

/-! ## Witnesses: states and operands that meet the hypotheses of each statement, clause by clause, named after it -/

/-- The hypotheses of the six instruction statements and of the ones about every instruction, at the largest operands. -/
theorem witness_instruction_clauses :
    (31 < 32 ∧ hasPmpcfg6 (st 0 0 0).config = true ∧ (st 0 0 0).mode = .machine) ∧
    ((inMode .user (st 0 0 0)).mode ≠ .machine ∧ hasPmpcfg6 (inMode .user (st 0 0 0)).config = true) ∧
    ((inMode .virtualSupervisor (st 0 0 0)).mode ≠ .machine) ∧
    hasPmpcfg6 (withoutRegister (st 0 0 0)).config = false := by decide

theorem witness_CsrrwSwaps : after (.csrrw 31 31) 31 (st 0 0x1F 0) = some (0, 0x1F, 0x1004) ∧
    faultOf (exec (.csrrw 31 31) (inMode .supervisor (st 0 0 0))) = some (.illegalInstruction 0x3A6F9FF3) := by decide
theorem witness_CsrrsSetsBits : after (.csrrs 31 31) 31 (st 0 0x1F 0) = some (0x1F, 0x1F, 0x1004) ∧
    after (.csrrs 31 0) 31 (st 0 0x1F 0) = some (0x1F, 0x1F, 0x1004) ∧
    faultOf (exec (.csrrs 31 31) (inMode .user (st 0 0 0))) = some (.illegalInstruction 0x3A6FAFF3) := by decide
theorem witness_CsrrcClearsBits : after (.csrrc 31 5) 31 (st 0 0x1F 0x18) = some (0x07, 0x1F, 0x1004) ∧
    after (.csrrc 31 0) 31 (st 0 0x1F 0) = some (0x1F, 0x1F, 0x1004) ∧
    faultOf (exec (.csrrc 31 31) (inMode .user (st 0 0 0))) = some (.illegalInstruction 0x3A6FBFF3) := by decide
theorem witness_CsrrwiWritesImmediate : after (.csrrwi 31 31) 31 (st 0 0 0) = some (0x1F, 0, 0x1004) ∧
    faultOf (exec (.csrrwi 31 31) (inMode .user (st 0 0 0))) = some (.illegalInstruction 0x3A6FDFF3) := by decide
theorem witness_CsrrsiSetsImmediateBits : after (.csrrsi 31 31) 31 (st 0 0 0) = some (0x1F, 0, 0x1004) ∧
    after (.csrrsi 31 0) 31 (st 0 0x1F 0) = some (0x1F, 0x1F, 0x1004) ∧
    faultOf (exec (.csrrsi 31 31) (inMode .user (st 0 0 0))) = some (.illegalInstruction 0x3A6FEFF3) := by decide
theorem witness_CsrrciClearsImmediateBits : after (.csrrci 31 31) 31 (st 0 0x1F 0) = some (0, 0x1F, 0x1004) ∧
    after (.csrrci 31 0) 31 (st 0 0x1F 0) = some (0x1F, 0x1F, 0x1004) ∧
    faultOf (exec (.csrrci 31 31) (inMode .user (st 0 0 0))) = some (.illegalInstruction 0x3A6FFFF3) := by decide
/-- A mode other than M, a virtualised one, and an absent register. -/
theorem witness_IllegalAccessRaises :
    faultOf (exec (.csrrwi 0 1) (inMode .user (st 0 0 0))) = some (.illegalInstruction 0x3A60D073) ∧
    faultOf (exec (.csrrwi 0 1) (inMode .virtualUser (st 0 0 0))) = some (.illegalInstruction 0x3A60D073) ∧
    faultOf (exec (.csrrwi 0 1) (withoutRegister (st 0 0 0))) = some (.illegalInstruction 0x3A60D073) := by decide
/-- An instruction that faults. -/
theorem witness_OnlyStopOfAnInstruction : ∃ f, exec (.csrrwi 0 1) (inMode .user (st 0 0 0)) = .fault f :=
  ⟨_, fault_of_faultOf witness_IllegalAccessRaises.1⟩
/-- An illegal byte, a locked field, a field out of reach, at the last field of each range. -/
theorem witness_WrittenValueNeverRaises :
    legal (st 0 0 0).config.pmpGranularity (fieldOf 0x0200000000000000#64 7) = false ∧
    legal (st 2 0 0).config.pmpGranularity (fieldOf 0x10#64 0) = false ∧
    locked (fieldOf (st 0 0x8000000000000000 0).pmpcfg6 7) = true ∧ (4 ≤ 7 ∧ (st32 0 0).xlen = .x32) := by decide
theorem witness_PseudoInstructionEffects :
    after (Pseudo.csrr 31) 31 (st 0 0x1F 0) = some (0x1F, 0x1F, 0x1004) ∧
    after (Pseudo.csrw 5) 5 (st 0 0 0x1F) = some (0x1F, 0x1F, 0x1004) ∧
    after (Pseudo.csrs 5) 5 (st 0 0x1B 0x04) = some (0x1F, 0x04, 0x1004) ∧
    after (Pseudo.csrc 5) 5 (st 0 0x1F 0x04) = some (0x1B, 0x04, 0x1004) := by decide
/-- Each of the three forms with a next state. -/
theorem witness_ImmediateFormsReachLowBitsOnly :
    (∃ t, exec (.csrrwi 0 31) (st 0 0 0) = .next t) ∧ (∃ t, exec (.csrrsi 0 31) (st 0 0 0) = .next t) ∧
    (∃ t, exec (.csrrci 0 31) (st 0 0 0) = .next t) := by
  have h1 : view (exec (.csrrwi 0 31) (st 0 0 0)) (fun t => t.pmpcfg6) = some 0x1F := by decide
  have h2 : view (exec (.csrrsi 0 31) (st 0 0 0)) (fun t => t.pmpcfg6) = some 0x1F := by decide
  have h3 : view (exec (.csrrci 0 31) (st 0 0 0)) (fun t => t.pmpcfg6) = some 0 := by decide
  exact ⟨(next_of_view h1).imp fun _ h => h.1, (next_of_view h2).imp fun _ h => h.1, (next_of_view h3).imp fun _ h => h.1⟩
/-- Both kinds of field in reach: below 4 at `XLEN = 32`, and 7 at `XLEN = 64`. -/
theorem witness_LaterReadSeesWrite : (31 ≠ 0 ∧ 31 < 32 ∧ (st32 0 0).mode = .machine ∧ hasPmpcfg6 (st32 0 0).config = true) ∧
    3 < 4 ∧ (st 0 0 0).xlen = .x64 := by decide

theorem witness_DecodeEncodeRoundTrip : WellFormed (.csrrw 31 31) ∧ WellFormed (.csrrs 0 0) ∧ WellFormed (.csrrc 31 0) ∧
    WellFormed (.csrrwi 0 31) ∧ WellFormed (.csrrsi 31 31) ∧ WellFormed (.csrrci 0 0) := by decide
theorem witness_EncodeOfDecodedWord : decode 0x3A6FDFF3#32 = .ok (.csrrwi 31 31) := by decide
theorem witness_EncodedWordIsSumOfFields : (31 < 32 ∧ 31 < 32) ∧ (encode (.csrrw 31 31)).toNat = 0x3A6F9FF3 := by decide

/-- A placed instruction meets the hypotheses of a step that runs it. -/
theorem witness_StepRunsDecodedInstruction :
    let s := placed (.csrrw 6 5) (st 0 0 0x9F)
    s.accessCheck .fetch s.fetchAddr 4 = none ∧ s.fetchAddr % 4 = 0 ∧
    Memory.read s.mem s.fetchAddr = some 0x73 ∧ Memory.read s.mem (s.fetchAddr + 1) = some 0x93 ∧
    Memory.read s.mem (s.fetchAddr + 2) = some 0x62 ∧ Memory.read s.mem (s.fetchAddr + 3) = some 0x3A ∧
    decode (wordOfBytes 0x73 0x93 0x62 0x3A) = .ok (.csrrw 6 5) := by decide
theorem witness_StoredWordRuns : WellFormed (.csrrci 31 31) ∧ (st 0 0 0).fetchAddr % 4 = 0 ∧
    (st 0 0 0).accessCheck .fetch (st 0 0 0).fetchAddr 4 = none := by decide

/-- A step to a next state, from a state with a locked legal field, a legal field with reserved bits, and all
invariants: the hypotheses of StepAdvancesPcAndKeepsSurroundings, StepKeepsFieldsLegal, StepKeepsWidths,
StepKeepsPcAligned, MemoryStaysCanonical, and with witness_runs of LockedFieldNeverChanges and
ReservedBitsNeverChange. -/
theorem witness_step_invariants : (∃ t, step (placed (.csrrw 6 5) (st 0 0x7F9F 0x1F)) = .next t) ∧
    FieldsLegal (placed (.csrrw 6 5) (st 0 0x7F9F 0x1F)) ∧ WidthsOk (placed (.csrrw 6 5) (st 0 0x7F9F 0x1F)) ∧
    MemoryOk (placed (.csrrw 6 5) (st 0 0x7F9F 0x1F)) ∧ locked (fieldOf 0x7F9F#64 0) = true := by
  have h : view (step (placed (.csrrw 6 5) (st 0 0x7F9F 0x1F))) (fun t => t.pmpcfg6) = some 0x609F := by decide
  exact ⟨(next_of_view h).imp fun _ h => h.1, by decide⟩
/-- The same at `XLEN = 32`, with high fields set. -/
theorem witness_HighFieldsOutOfReach : (∃ t, step (placed (.csrrw 6 5) (st32 0x1F00000000000000 0x1F)) = .next t) ∧
    (placed (.csrrw 6 5) (st32 0x1F00000000000000 0x1F)).xlen = .x32 ∧
    WidthsOk (placed (.csrrw 6 5) (st32 0x1F00000000000000 0x1F)) := by
  have h : view (step (placed (.csrrw 6 5) (st32 0x1F00000000000000 0x1F))) (fun t => t.pmpcfg6) =
      some 0x1F0000000000001F := by decide
  exact ⟨(next_of_view h).imp fun _ h => h.1, by decide⟩
/-- A run of one step, as the statements about runs take it. -/
theorem witness_runs : view (Sys2Proof.core.run 1 (placed (.csrrw 6 5) (st 0 0x7F9F 0x1F)))
    (fun t => State.pmpcfg6 t) = some 0x609F := by decide

/-- The clauses of the field rule at their boundaries: out of reach at 4 but not at 3, locked, the reserved pair,
NA4 at 2 but not at 1, and an accepted byte. -/
theorem witness_WriteFieldRule : (4 < 8 ∧ 4 ≤ 4 ∧ Xlen.x32 = .x32) ∧ (0x80#8 : Byte).getLsbD 7 = true ∧
    ((0x02#8 : Byte).getLsbD 0 = false ∧ (0x02#8 : Byte).getLsbD 1 = true) ∧
    (2 ≤ 2 ∧ (0x10#8 : Byte).getLsbD 4 = true ∧ (0x10#8 : Byte).getLsbD 3 = false) ∧
    writeField 1 3 0x60 0x91 .x32 = 0xF1 := by decide
theorem witness_WriteFieldAgreesWithSourceText : 7 < 8 ∧ (0x60#8 &&& 0x60#8 = (0xFF#8 : Byte) &&& 0x60#8) ∧
    writeField 0 7 0x60 0xFF .x64 = 0xFF := by decide
theorem witness_ReadReturnsStoredFields : fieldOf (st32 0xFF000000FF000000 0).readPmpcfg6 7 = 0 ∧
    fieldOf (st32 0xFF000000FF000000 0).readPmpcfg6 4 = 0 ∧ fieldOf (st32 0xFF000000FF000000 0).readPmpcfg6 3 = 0xFF ∧
    fieldOf (st 0 0xFF000000FF000000 0).readPmpcfg6 7 = 0xFF := by decide
theorem witness_WriteBackIsIdentity : FieldsLegal (st 0 0x7F9F 0) ∧ FieldsLegal (st 2 0xFF00000000000000 0) := by decide
theorem witness_FieldsAreIndependent : (st 0 0x1F0B 0).xlen = (st 0 0x000B 7).xlen ∧
    (st 0 0x1F0B 0).config.pmpGranularity = (st 0 0x000B 7).config.pmpGranularity ∧
    fieldOf (st 0 0x1F0B 0).pmpcfg6 0 = fieldOf (st 0 0x000B 7).pmpcfg6 0 ∧
    fieldOf 0x1119#64 0 = fieldOf 0x2219#64 0 := by decide
/-- The last field in reach of each width. -/
theorem witness_OneWriteLocksForGood :
    (3 < 8 ∧ 3 < 4 ∧ locked (fieldOf (st32 0 0).pmpcfg6 3) = false ∧ locked (fieldOf 0x9F000000#64 3) = true ∧
      legal (st32 0 0).config.pmpGranularity (fieldOf 0x9F000000#64 3) = true) ∧
    (7 < 8 ∧ (st 0 0 0).xlen = .x64 ∧ locked (fieldOf (st 0 0 0).pmpcfg6 7) = false ∧
      locked (fieldOf 0x9F00000000000000#64 7) = true ∧
      legal (st 0 0 0).config.pmpGranularity (fieldOf 0x9F00000000000000#64 7) = true) := by decide
theorem witness_ResetTakesAnyLegalDraw : legalDraw (st 0 0 0).config 0xFF7F9F1F00018010#64 = true ∧
    legalDraw (st 2 0 0).config 0xFF7F9F1F00018008#64 = true := by decide
theorem witness_RegisterExistsFromVersion :
    hasPmpcfg6 { State.reset.config with smpmp := some { major := 1, minor := 10, patch := 9 } } = false ∧
    hasPmpcfg6 { State.reset.config with smpmp := some { major := 1, minor := 11, patch := 0 } } = true ∧
    hasPmpcfg6 { State.reset.config with smpmp := some { major := 2, minor := 0, patch := 0 } } = true := by decide

/-- M-mode at 0x1000, entry 24 unlocked and NAPOT over the whole space, `x5` offering 99 (L, NAPOT, R, no X): the
instruction completes and the next fetch, decided by entry 24, faults. -/
theorem witness_LockWithoutExecuteStopsNextFetch :
    (0 < 8 ∧ 0 < 4 ∧ locked (fieldOf (st 0 0 0x99).pmpcfg6 0) = false ∧
      locked (fieldOf ((st 0 0 0x99).readReg 5) 0) = true ∧ bitX (fieldOf ((st 0 0 0x99).readReg 5) 0) = false ∧
      legal (st 0 0 0x99).config.pmpGranularity (fieldOf ((st 0 0 0x99).readReg 5) 0) = true) ∧
    view (exec (.csrrw 0 5) (st 0 0 0x99)) (fun t => (t.decidingEntry t.fetchAddr 4, inSpace t.xlen t.fetchAddr 4,
      faultOf (step t))) = some (some 24, true, some (.instructionAccessFault 0x1004)) := by decide

/-! The memory check. The address registers after reset are all ones, so a NAPOT entry covers the whole space. -/

/-- A field that decides a whole access, in user mode and, locked, in M-mode. -/
theorem witness_DecidedAccessFaultsWhenBitClear :
    (hasPmpcfg6 (st 0 0x98 0).config = true ∧ inSpace (st 0 0x98 0).xlen 0x2000 8 = true ∧
      (st 0 0x98 0).decidingEntry 0x2000 8 = some (24 + 0) ∧
      (bytesOf 0x2000 8).all ((st 0 0x98 0).matchesByte 24) = true) ∧
    (st 0 0x98 0).accessCheck .load 0x2000 8 = some (.loadAccessFault 0x2000) ∧
    (st 0 0x98 0).accessCheck .amo 0x2000 8 = some (.storeAmoAccessFault 0x2000) ∧
    (st 0 0x98 0).accessCheck .fetch 0x2000 4 = some (.instructionAccessFault 0x2000) ∧
    (st 0 0x18 0).accessCheck .load 0x2000 8 = none ∧
    (inMode .user (st 0 0x1F00000000000000 0)).decidingEntry 0x2000 8 = some (24 + 7) ∧
    (inMode .user (st 0 0x1F00000000000000 0)).accessCheck .storeConditional 0x2000 8 = none := by decide
/-- R44: M-mode loads with MPRV set are checked in the mode MPP, which may be M; fetches are not, and outside M-mode
MPRV does not matter. -/
theorem test_mprv : ({ st 0 0x18 0 with mprv := true } : State).accessCheck .load 0x2000 8 = some (.loadAccessFault 0x2000) ∧
    ({ st 0 0x18 0 with mprv := true } : State).accessCheck .fetch 0x2000 4 = none ∧
    ({ st 0 0x18 0 with mprv := true, mpp := .machine } : State).accessCheck .store 0x2000 8 = none ∧
    ({ st 0 0x18 0 with mode := .user, mprv := true, mpp := .machine } : State).accessCheck .load 0x2000 8 =
      some (.loadAccessFault 0x2000) := by decide
/-- R44, R94: a denied page-table read faults by the kind of the original access. -/
theorem test_page_table_read : (st 0 0x18 0).pageTableCheck .store 0x4000 0x2000 8 = some (.storeAmoAccessFault 0x4000) ∧
    (st 0 0x19 0).pageTableCheck .store 0x4000 0x2000 8 = none := by decide
/-- One entry's address register set. -/
def withAddr (i : Nat) (a : BitVec 54) (s : State) : State := { s with pmpaddr := s.pmpaddr.setIfInBounds i a }

/-- The four matching modes at the edges of their regions: OFF; TOR from 0x1000 to 0x2000; NA4 at 0x1000; NAPOT of 16
bytes at 0x1000; NAPOT over the whole space at its last byte. -/
theorem witness_RegionByMatchingMode :
    ((st 0 0 0).config.grain = 0 ∧ (0x07#8 : Byte).toNat / 8 % 4 = 0 ∧ (0x0F#8 : Byte).toNat / 8 % 4 = 1 ∧
      (0x17#8 : Byte).toNat / 8 % 4 = 2 ∧ (0x1F#8 : Byte).toNat / 8 % 4 = 3) ∧
    (st 0 0x07 0).matchesByte 24 0x1000 = false ∧
    (let s := withAddr 23 0x400 (withAddr 24 0x800 (st 0 0x0F 0));
      [0xFFF, 0x1000, 0x1FFF, 0x2000].map (s.matchesByte 24) = [false, true, true, false]) ∧
    (let s := withAddr 24 0x400 (st 0 0x17 0);
      [0xFFF, 0x1000, 0x1003, 0x1004].map (s.matchesByte 24) = [false, true, true, false]) ∧
    (let s := withAddr 24 0x401 (st 0 0x1F 0);
      [0xFFF, 0x1000, 0x100F, 0x1010].map (s.matchesByte 24) = [false, true, true, false]) ∧
    (st 0 0x1F 0).matchesByte 24 0xFFFFFFFFFFFFFF = true ∧ (st32 0x1F 0).matchesByte 24 0x3FFFFFFFF = true := by decide
/-- The bits a NAPOT clause names, for the address register 0x401: one trailing one. -/
theorem witness_RegionByMatchingMode_napot :
    (withAddr 24 0x401 (st 0 0x1F 0)).pmpaddrOf 24 = 0x401 ∧ (∀ j < 1, (0x401).testBit j = true) ∧
    (0x401).testBit 1 = false := by decide
/-- Granularity `G` for regions. -/
def withGrain (g : Nat) (s : State) : State := { s with config := { s.config with grain := g } }

/-- Granularity 3 (32-byte regions): TOR from 0x1000 to 0x2000 whatever the low three bits of the address registers,
NAPOT of 32 bytes, and NAPOT over the whole space, each at its edges; OFF; the last clause at G as wide as the register. -/
theorem witness_GranularityBoundsRegions :
    ((0x0F#8 : Byte).toNat / 8 % 4 = 1 ∧ (0x1F#8 : Byte).toNat / 8 % 4 = 3 ∧ 3 ≤ pmpaddrBits .x64 ∧
      (withGrain 3 (st 2 0x07 0)).matchesByte 24 0x1000 = false) ∧
    (let s := withAddr 23 0x407 (withAddr 24 0x803 (withGrain 3 (st 2 0x0F 0)));
      [0xFFF, 0x1000, 0x1FFF, 0x2000].map (s.matchesByte 24) = [false, true, true, false]) ∧
    (let s := withAddr 24 0x400 (withGrain 3 (st 2 0x1F 0));
      [0xFFF, 0x1000, 0x101F, 0x1020].map (s.matchesByte 24) = [false, true, true, false]) ∧
    (let s := withGrain 3 (st 2 0x1F 0);
      s.pmpaddrOf 24 ||| (2 ^ (3 - 1) - 1) = 2 ^ pmpaddrBits .x64 - 1 ∧ s.matchesByte 24 0xFFFFFFFFFFFFFF = true) ∧
    (let s := withAddr 24 0 (withGrain 54 (st 2 0x1F 0));
      s.config.grain ≤ pmpaddrBits s.xlen ∧ s.region 24 = (0, 2 ^ 56)) := by
  decide
/-- The bits the NAPOT clause names, for the address register 0x400 seen with two low ones. -/
theorem witness_GranularityBoundsRegions_napot :
    (withAddr 24 0x400 (withGrain 3 (st 2 0x1F 0))).pmpaddrOf 24 ||| (2 ^ (3 - 1) - 1) = 0x403 ∧
    (∀ j < 2, (0x403).testBit j = true) ∧ (0x403).testBit 2 = false := by decide
theorem witness_LowestMatchingEntryDecides : (st 0 0x1F1F 0).decidingEntry 0x1000 4 = some 24 ∧
    (st 0 0x1F00 0).decidingEntry 0x1000 4 = some 25 := by decide
/-- A region of 4 bytes inside an access of 8. -/
theorem witness_PartialMatchFails :
    let s := withAddr 24 0x400 (st 0 0x17 0)
    s.config.smpmp ≠ none ∧ s.decidingEntry 0x1000 8 = some 24 ∧ s.matchesByte 24 0x1004 = false ∧
      s.pmpAllows .machine .load 0x1000 8 = false := by decide
/-- No entry matches after reset, where every entry is OFF. -/
theorem witness_NoMatchAllowsMachineOnly : (st 0 0 0).config.smpmp ≠ none ∧
    (∀ i < 64, ∀ z, 0x1000 ≤ z → z < 0x1000 + 4 → (st 0 0 0).matchesByte i z = false) := by
  refine ⟨by decide, fun i hi z h1 h2 => ?_⟩
  have h : ∀ i < 64, ∀ j < 4, (st 0 0 0).matchesByte i (0x1000 + j) = false := by decide
  have hz := h i hi (z - 0x1000) (by omega)
  rwa [show 0x1000 + (z - 0x1000) = z by omega] at hz
/-- The clauses of a page-table read: decided whole with R set and with L, X and no R; decided in part; not decided. -/
theorem witness_PageTableReadIsSupervisorLoad :
    ((st 0 0x19 0).config.smpmp ≠ none ∧ inSpace (st 0 0x19 0).xlen 0x2000 8 = true ∧
      (st 0 0x19 0).decidingEntry 0x2000 8 = some (24 + 0) ∧ hasPmpcfg6 (st 0 0x19 0).config = true ∧
      (bytesOf 0x2000 8).all ((st 0 0x19 0).matchesByte 24) = true ∧
      (st 0 0x19 0).pageTableCheck .fetch 0x4000 0x2000 8 = none) ∧
    ((st 0 0x9C00000000000000 0).decidingEntry 0x2000 8 = some (24 + 7) ∧
      (st 0 0x9C00000000000000 0).pageTableCheck .fetch 0x4000 0x2000 8 = some (.instructionAccessFault 0x4000)) ∧
    (let s := withAddr 24 0x400 (st 0 0x17 0);
      s.decidingEntry 0x1000 8 = some 24 ∧ s.matchesByte 24 0x1004 = false ∧
      s.pageTableCheck .loadReserved 0x4000 0x1000 8 = some (.loadAccessFault 0x4000)) ∧
    (st 0 0 0).pageTableCheck .amo 0x4000 0x1000 4 = some (.storeAmoAccessFault 0x4000) := by decide
theorem witness_ReservedBitsUnreadByChecks :
    ∀ k < 8, fieldOf 0x7F3F5F1F#64 k &&& 0x9F#8 = fieldOf (st 0 0x1F1F1F1F 0).pmpcfg6 k &&& 0x9F#8 := by decide
/-- User mode with an unlocked field, and M-mode with a locked one. -/
theorem witness_FetchWithoutExecuteFaults :
    (let s := inMode .user (st 0 0x1B 0)
     hasPmpcfg6 s.config = true ∧ inSpace s.xlen s.fetchAddr 4 = true ∧ s.decidingEntry s.fetchAddr 4 = some (24 + 0) ∧
      bitX (fieldOf s.pmpcfg6 0) = false ∧ s.mode ≠ .machine) ∧
    (let s := st 0 0x9900000000000000 0
     s.decidingEntry s.fetchAddr 4 = some (24 + 7) ∧ bitX (fieldOf s.pmpcfg6 7) = false ∧
      locked (fieldOf s.pmpcfg6 7) = true) := by decide

/-- The fetched word of a state, as a number. -/
def fetched (s : State) : Option (BitVec 32) :=
  match s.fetch with
  | .ok w => some w
  | .error _ => none

/-- A fetched word is what the fetch answered. -/
theorem fetch_of_fetched {s : State} {w : BitVec 32} (h : fetched s = some w) : s.fetch = .ok w := by
  unfold fetched at h
  split at h
  · rename_i v hv
    rw [hv, Option.some.inj h]
  · cases h

/-- A word other than the six, as the statement asks for it. -/
abbrev otherAccess (w : BitVec 32) : Prop :=
  opcodeField w = 0x73#7 ∧ funct3Field w ≠ 0#3 ∧ funct3Field w ≠ 4#3 ∧ csrField w ≠ 0x3A6#12

/-- The state that fetches the word `w` in the mode `m`, where entry 24 permits it. -/
def fetching (m : Mode) (w : Nat) : State := inMode m ((st 0 0x9F 0).withFetchWord 32 w)

/-- R40, R64, R96 at the edge of each clause: reads of a level 1 number (0x100) in user modes, and of a level 2 number
(0x200) and a level 3 number (0x3B0) in supervisor modes; csrrw to a read-only number (0xC00, level 0) in user and
supervisor modes, and csrrwi to 0xF11 in M-mode; 0x3A7 read at `XLEN = 64`. -/
theorem witness_OtherRegisterIllegalAccess :
    ([(Mode.user, 0x10002073), (Mode.virtualUser, 0x10002073), (Mode.supervisor, 0x20002073),
      (Mode.virtualSupervisor, 0x20002073), (Mode.supervisor, 0x3B002073), (Mode.user, 0xC0001073),
      (Mode.supervisor, 0xC0001073), (Mode.virtualUser, 0xC0001073), (Mode.machine, 0xF1105073),
      (Mode.machine, 0x3A702073)].all fun p =>
        fetched (fetching p.1 p.2) == some (BitVec.ofNat 32 p.2) && decide (otherAccess (BitVec.ofNat 32 p.2)) &&
          faultOf (step (fetching p.1 p.2)) == some (.illegalInstruction (BitVec.ofNat 32 p.2))) = true ∧
    (csrField 0x10002073#32).toNat / 256 % 4 = 1 ∧ (csrField 0x20002073#32).toNat / 256 % 4 = 2 ∧
    (csrField 0xC0001073#32).toNat / 1024 = 3 ∧ funct3Field 0xC0001073#32 = 1#3 ∧
    (csrField 0xF1105073#32).toNat / 1024 = 3 ∧ funct3Field 0xF1105073#32 = 5#3 ∧
    csrField 0x3A702073#32 = 0x3A7#12 ∧ (fetching .machine 0x3A702073).xlen = .x64 := by decide
/-- The first hypothesis of the statement, as it is written there. -/
theorem witness_OtherRegisterIllegalAccess_fetch : (fetching .user 0x10002073).fetch = .ok 0x10002073#32 :=
  fetch_of_fetched (by decide)
/-- R64: what the mode may access, and a read of a read-only number, raises nothing: level 0 in user mode, level 1 in
supervisor mode. Such a register is outside the spec. -/
theorem test_step_permitted_other :
    refusalOf (step (fetching .user 0xC0002073)) = some (.otherCsr 0xC00) ∧
    refusalOf (step (fetching .supervisor 0x10001073)) = some (.otherCsr 0x100) := by decide

end Sys2Proof.Tests
end

section
/-! Proofs of the scope of the model (spec/00_scope.md): on which machines the register exists. -/

namespace Sys2Proof.Machine

open Sys2Proof

/-- R2: version numbers are compared by the major number first, and by the minor number within major version 1. -/
theorem definesPmpcfg6_iff (v : Version) :
    definesPmpcfg6 v = true ↔ 1 < v.major ∨ (v.major = 1 ∧ 11 ≤ v.minor) := by
  simp [definesPmpcfg6]

/-- R13, D7: the register belongs to the version of Smpmp that the machine implements. -/
theorem hasPmpcfg6_iff (c : Config) :
    hasPmpcfg6 c = true ↔ ∃ v, c.smpmp = some v ∧ definesPmpcfg6 v = true := by
  cases h : c.smpmp with
  | none => simp [hasPmpcfg6, h]
  | some v => simp [hasPmpcfg6, h]

/-- Settles O18, by the version that makes the register exist. -/
theorem registerExistsFromVersion : Obligations.RegisterExistsFromVersion := by
  unfold Obligations.RegisterExistsFromVersion
  intro c
  simp only [hasPmpcfg6_iff, definesPmpcfg6_iff]

end Sys2Proof.Machine
end

section
/-! Proofs of the state (spec/10_state.md): what a step does to the fields of the register, the general registers
and the program counter, and what it keeps. Each claim over a run is its step lemma put through `run_related`. -/

namespace Sys2Proof.Machine

open Sys2Proof Sys2Proof.Safety

/-! What a step is. -/

/-- A fetch that passes the check at an aligned pc returns the word stored there (R60, log 19). -/
theorem fetch_of_readWord {s : State} {w : BitVec 32} (hc : s.accessCheck .fetch s.fetchAddr 4 = none)
    (ha : s.fetchAddr % 4 = 0) (hw : Memory.readWord s.mem s.fetchAddr = some w) : s.fetch = .ok w := by
  simp [State.fetch, hc, ha, hw]

/-- A fetched word that decodes is run (R33). -/
theorem step_of_fetch_decode {s : State} {w : BitVec 32} {i : Instr} (hf : s.fetch = .ok w)
    (hd : decode w = .ok i) : step s = exec i s := by
  simp [step, hf, hd]

/-- Every next state of a step is the one an instruction leaves. -/
theorem step_next_afterCsr {s t : State} (h : step s = .next t) : ∃ rd written, t = afterCsr rd written s := by
  obtain ⟨w, i, hf, hd, he⟩ := step_next h
  exact (exec_next he).2

/-! The fields of the register. -/

/-- R72: field `k` of the value stored is what the write rule makes of field `k` and byte `k` of the value offered. -/
theorem fieldOf_writtenValue (P : Nat) (x : Xlen) (old : BitVec 64) (v : XWord) {k : Nat} (hk : k < 8) :
    fieldOf (writtenValue P x old v) k = writeField P k (fieldOf old k) (fieldOf (truncX x v) k) x :=
  fieldOf_joinFields _ hk

/-- What a step can do to a field: keep it, or, when it is unlocked and in reach, give it a legal byte under its old
bits 6:5. -/
theorem step_field_cases {s t : State} (h : step s = .next t) {k : Nat} (hk : k < 8) :
    fieldOf t.pmpcfg6 k = fieldOf s.pmpcfg6 k ∨
    ∃ new, fieldOf t.pmpcfg6 k = (new &&& 0x9F#8) ||| (fieldOf s.pmpcfg6 k &&& 0x60#8) ∧
      locked (fieldOf s.pmpcfg6 k) = false ∧ legal s.config.pmpGranularity new = true ∧ (k < 4 ∨ s.xlen = .x64) := by
  obtain ⟨rd, written, rfl⟩ := step_next_afterCsr h
  rw [afterCsr_pmpcfg6]
  cases written with
  | none => exact .inl rfl
  | some v =>
    rw [Option.elim_some, fieldOf_writtenValue _ _ _ _ hk]
    exact (writeField_cases ..).imp_right fun ha => ⟨_, ha⟩

/-- A legal byte stays legal under the bits 6:5 of another: R26 does not look at them. -/
theorem legal_accepted (P : Nat) (new old : Byte) :
    legal P ((new &&& 0x9F#8) ||| (old &&& 0x60#8)) = legal P new := by
  obtain ⟨-, -, hp, ha⟩ := accepted_bits new old
  simp only [legal, hp, ha]

theorem step_config {s t : State} (h : step s = .next t) : t.config = s.config := by
  obtain ⟨rd, written, rfl⟩ := step_next_afterCsr h
  exact afterCsr_config ..

theorem step_xlen {s t : State} (h : step s = .next t) : t.xlen = s.xlen := by
  obtain ⟨rd, written, rfl⟩ := step_next_afterCsr h
  exact afterCsr_xlen ..

theorem step_field_of_locked {s t : State} (h : step s = .next t) {k : Nat} (hk : k < 8)
    (hl : locked (fieldOf s.pmpcfg6 k) = true) : fieldOf t.pmpcfg6 k = fieldOf s.pmpcfg6 k := by
  obtain hkeep | ⟨new, -, hunlocked, -, -⟩ := step_field_cases h hk
  · exact hkeep
  · simp [hl] at hunlocked

theorem step_reservedBits {s t : State} (h : step s = .next t) {k : Nat} (hk : k < 8) :
    reservedBits (fieldOf t.pmpcfg6 k) = reservedBits (fieldOf s.pmpcfg6 k) := by
  obtain hkeep | ⟨new, hnew, -, -, -⟩ := step_field_cases h hk
  · rw [hkeep]
  · rw [hnew, (accepted_bits new _).1]

theorem step_field_of_x32 {s t : State} (h : step s = .next t) (hx : s.xlen = .x32) {k : Nat} (h4 : 4 ≤ k)
    (hk : k < 8) : fieldOf t.pmpcfg6 k = fieldOf s.pmpcfg6 k := by
  obtain hkeep | ⟨new, -, -, -, hlow | hx64⟩ := step_field_cases h hk
  · exact hkeep
  · omega
  · simp [hx] at hx64

/-- Settles O32: a step keeps a field or gives it a legal byte, whose legality the bits 6:5 do not touch. -/
theorem stepKeepsFieldsLegal : Obligations.StepKeepsFieldsLegal := by
  unfold Obligations.StepKeepsFieldsLegal
  intro s t hs h k hk
  rw [step_config h]
  obtain hkeep | ⟨new, hnew, -, hlegal, -⟩ := step_field_cases h hk
  · rw [hkeep]
    exact hs k hk
  · rw [hnew, legal_accepted]
    exact hlegal

/-- Settles O33: a step keeps a locked field, which is then still locked for the next one. -/
theorem lockedFieldNeverChanges : Obligations.LockedFieldNeverChanges := by
  unfold Obligations.LockedFieldNeverChanges
  intro n s t k h hk
  refine run_related
    (R := fun s t => locked (fieldOf s.pmpcfg6 k) = true → fieldOf t.pmpcfg6 k = fieldOf s.pmpcfg6 k)
    (fun _ _ => rfl) (fun a b c hab hbc ha => ?_) (fun _ _ h => step_field_of_locked h hk) n s t h
  have hb := hab ha
  rw [hbc (hb.symm ▸ ha), hb]

/-- Settles O34: no step changes bits 6:5 of a field. -/
theorem reservedBitsNeverChange : Obligations.ReservedBitsNeverChange := by
  unfold Obligations.ReservedBitsNeverChange
  intro n s t k h hk
  exact run_related (R := fun s t => reservedBits (fieldOf t.pmpcfg6 k) = reservedBits (fieldOf s.pmpcfg6 k))
    (fun _ => rfl) (fun _ _ _ hab hbc => hbc.trans hab) (fun _ _ h => step_reservedBits h hk) n s t h

/-- Settles O35: at `XLEN = 32` a step keeps the fields from 4 on, and the width with them. -/
theorem highFieldsOutOfReach : Obligations.HighFieldsOutOfReach := by
  unfold Obligations.HighFieldsOutOfReach
  intro n s t k h hx h4 hk
  have hrun := run_related
    (R := fun s t => s.xlen = .x32 → t.xlen = .x32 ∧ fieldOf t.pmpcfg6 k = fieldOf s.pmpcfg6 k)
    (fun _ hs => ⟨hs, rfl⟩) (fun a b c hab hbc ha => ?_)
    (fun _ _ h hs => ⟨(step_xlen h).trans hs, step_field_of_x32 h hs h4 hk⟩) n s t h
  · exact (hrun hx).2
  · obtain ⟨hxb, hb⟩ := hab ha
    obtain ⟨hxc, hc⟩ := hbc hxb
    exact ⟨hxc, hc.trans hb⟩

/-! The general registers and the program counter. -/

theorem writePmpcfg6_widthsOk {s : State} (v : XWord) (h : WidthsOk s) : WidthsOk (s.writePmpcfg6 v) := h

/-- A register is written with a value truncated to the width (R32). -/
theorem writeReg_widthsOk {s : State} (i : Nat) (v : XWord) (h : WidthsOk s) : WidthsOk (s.writeReg i v) := by
  obtain ⟨hpc, hregs⟩ := h
  by_cases hi : i = 0
  · subst hi
    exact ⟨hpc, hregs⟩
  · refine ⟨by simpa using hpc, fun j hj => ?_⟩
    by_cases he : i - 1 = j
    · simpa [State.writeReg, hi, he, hj] using truncX_lt s.xlen v
    · simpa [State.writeReg, hi, Vector.getElem?_setIfInBounds_ne he] using hregs j hj

theorem advancePc_widthsOk {s : State} (h : WidthsOk s) : WidthsOk s.advancePc :=
  ⟨truncX_lt s.xlen _, h.2⟩

theorem afterCsr_widthsOk (rd : Nat) (written : Option XWord) {s : State} (h : WidthsOk s) :
    WidthsOk (afterCsr rd written s) := by
  cases written with
  | none => exact advancePc_widthsOk (writeReg_widthsOk _ _ h)
  | some v => exact advancePc_widthsOk (writeReg_widthsOk _ _ (writePmpcfg6_widthsOk v h))

/-- Settles O36: each of the three updates an instruction makes keeps the widths. -/
theorem stepKeepsWidths : Obligations.StepKeepsWidths := by
  unfold Obligations.StepKeepsWidths
  intro s t hs h
  obtain ⟨rd, written, rfl⟩ := step_next_afterCsr h
  exact afterCsr_widthsOk rd written hs

/-- R33: the sum is taken modulo `2^XLEN`, although the container wraps at `2^64`. -/
theorem afterCsr_pcAdvanced (rd : Nat) (written : Option XWord) (s : State) :
    PcAdvanced s (afterCsr rd written s) := by
  have hdvd : 2 ^ s.xlen.bits ∣ 2 ^ 64 := Nat.pow_dvd_pow 2 (by cases s.xlen <;> decide)
  rw [PcAdvanced, afterCsr_pc, truncX_toNat, BitVec.toNat_add, Nat.mod_mod_of_dvd _ hdvd, BitVec.toNat_ofNat]

theorem afterCsr_untouched (rd : Nat) (written : Option XWord) (s : State) :
    Untouched s (afterCsr rd written s) := by
  simp [Untouched]

/-- Settles O8, by the state every instruction leaves. -/
theorem stepAdvancesPcAndKeepsSurroundings : Obligations.StepAdvancesPcAndKeepsSurroundings := by
  unfold Obligations.StepAdvancesPcAndKeepsSurroundings
  intro s t h
  obtain ⟨rd, written, rfl⟩ := step_next_afterCsr h
  exact ⟨afterCsr_pcAdvanced rd written s, afterCsr_untouched rd written s⟩

/-- `2^XLEN` is a multiple of 4, so truncation keeps the place of the pc within a word. -/
theorem fetchAddr_mod_four (s : State) : s.fetchAddr % 4 = s.pc.toNat % 4 := by
  have hdvd : 4 ∣ 2 ^ s.xlen.bits := by cases s.xlen <;> decide
  rw [State.fetchAddr, truncX_toNat, Nat.mod_mod_of_dvd _ hdvd]

theorem pcAligned_of_pcAdvanced {s t : State} (hs : PcAligned s) (h : PcAdvanced s t) : PcAligned t := by
  have hdvd : 4 ∣ 2 ^ s.xlen.bits := by cases s.xlen <;> decide
  rw [PcAligned, fetchAddr_mod_four] at hs ⊢
  rw [h, Nat.mod_mod_of_dvd _ hdvd]
  omega

/-- Settles O37: the fetch of a step needs an aligned pc, and the pc moves on by a word. -/
theorem stepKeepsPcAligned : Obligations.StepKeepsPcAligned := by
  unfold Obligations.StepKeepsPcAligned
  intro s t h
  obtain ⟨w, i, hf, -, -⟩ := step_next h
  obtain ⟨-, haligned, -⟩ := fetch_ok hf
  exact ⟨haligned, pcAligned_of_pcAdvanced haligned (stepAdvancesPcAndKeepsSurroundings s t h).1⟩

/-- Settles O6: the four bytes are the word fetched, and the step runs what it decodes to. -/
theorem stepRunsDecodedInstruction : Obligations.StepRunsDecodedInstruction := by
  unfold Obligations.StepRunsDecodedInstruction
  intro s b0 b1 b2 b3 i hcheck haligned h0 h1 h2 h3 hdecode
  have hword : Memory.readWord s.mem s.fetchAddr = some (wordOfBytes b0 b1 b2 b3) := by
    simp [Memory.readWord, h0, h1, h2, h3]
  exact step_of_fetch_decode (fetch_of_readWord hcheck haligned hword) hdecode

/-! The count of the legal bytes. -/

/-- R26: the granularity matters only through `na4Ok`. -/
theorem legal_eq_of_na4Ok_eq {P Q : Nat} (h : na4Ok P = na4Ok Q) (b : Byte) : legal P b = legal Q b := by
  simp only [legal, h]

/-- R26: bit 7 and bits 6:5 are not looked at. -/
theorem legal_and_1F (P : Nat) (b : Byte) : legal P (b &&& 0x1F#8) = legal P b := by
  simp [legal, reservedPair, asksNa4, BitVec.and_assoc]

/-- Legality of a byte by its number has the period 32. -/
theorem legal_ofNat_add (P m n : Nat) : legal P (BitVec.ofNat 8 (32 * m + n)) = legal P (BitVec.ofNat 8 n) := by
  have hlow : BitVec.ofNat 8 (32 * m + n) &&& 0x1F#8 = BitVec.ofNat 8 n &&& 0x1F#8 := by
    apply BitVec.eq_of_toNat_eq
    simp only [BitVec.toNat_and, BitVec.toNat_ofNat]
    rw [show 31 % 2 ^ 8 = 2 ^ 5 - 1 from rfl, Nat.and_two_pow_sub_one_eq_mod, Nat.and_two_pow_sub_one_eq_mod]
    omega
  rw [← legal_and_1F, hlow, legal_and_1F]

/-- Each further setting of the bits above bit 4 brings as many legal bytes as the first. -/
theorem length_filter_legal (P m : Nat) :
    ((List.range (32 * m)).filter fun n => legal P (BitVec.ofNat 8 n)).length =
      m * ((List.range 32).filter fun n => legal P (BitVec.ofNat 8 n)).length := by
  induction m with
  | zero => simp
  | succ m ih =>
    rw [Nat.mul_succ, List.range_add, List.filter_append, List.length_append, ih, Nat.succ_mul m, List.filter_map,
      List.length_map]
    simp only [Function.comp_def, legal_ofNat_add]

/-- Settles O17: eight times the legal bytes among the settings of bits 4:0, which are counted at granularity 0 for
every granularity below 2, and at 2 for every other. -/
theorem legalByteCount : Obligations.LegalByteCount := by
  unfold Obligations.LegalByteCount
  intro P
  rw [show 256 = 32 * 8 from rfl, length_filter_legal]
  split
  · rename_i hP
    have hna4 : na4Ok P = na4Ok 0 := by simp [na4Ok, hP]
    simp only [legal_eq_of_na4Ok_eq hna4]
    decide
  · rename_i hP
    have hna4 : na4Ok P = na4Ok 2 := by simp [na4Ok, hP]
    simp only [legal_eq_of_na4Ok_eq hna4]
    decide

end Sys2Proof.Machine
end

section
/-! Proofs of the memory check (spec/20_memory.md): which bytes an entry matches, which entry decides an access, what
the entry allows, and what a write of the register means for the next read and the next fetch. -/

namespace Sys2Proof.Machine

open Sys2Proof

/-! The bits of a configuration byte (R16 to R22). -/

/-- R17: the lock is bit 7. -/
theorem locked_eq_getLsbD (b : Byte) : locked b = b.getLsbD 7 := by
  rw [locked, show 0x80#8 = BitVec.twoPow 8 7 from rfl, BitVec.and_twoPow]
  cases b.getLsbD 7 <;> rfl

/-- R19: the number in bits 4:3 that stands for a matching mode. -/
def MatchMode.number : MatchMode → Nat
  | .off => 0
  | .tor => 1
  | .na4 => 2
  | .napot => 3

theorem MatchMode.number_injective : Function.Injective MatchMode.number := by
  intro m n h
  cases m <;> cases n <;> simp_all [MatchMode.number]

theorem number_matchMode (b : Byte) : (matchMode b).number = b.toNat / 8 % 4 := by
  have hbits : b.toNat / 8 % 4 = 2 * (b.getLsbD 4).toNat + (b.getLsbD 3).toNat := by
    rw [BitVec.getLsbD, BitVec.getLsbD, Nat.toNat_testBit, Nat.toNat_testBit]
    omega
  rw [hbits, matchMode]
  cases b.getLsbD 4 <;> cases b.getLsbD 3 <;> rfl

theorem matchMode_of_number {b : Byte} (m : MatchMode) (h : b.toNat / 8 % 4 = m.number) : matchMode b = m :=
  MatchMode.number_injective ((number_matchMode b).trans h)

/-- R42: an entry denies an access exactly when it applies and the bit of the access's kind is clear. -/
theorem entryAllows_eq_false_iff {m : Mode} {kind : AccessKind} {b : Byte} :
    entryAllows m kind b = false ↔ (m ≠ .machine ∨ b.getLsbD 7 = true) ∧ permBit kind b = false := by
  simp [entryAllows, applies, locked_eq_getLsbD, imp_iff_not_or]

/-! Which bytes an entry matches (R43, R46). -/

theorem pmpaddrOf_lt (s : State) (i : Nat) : s.pmpaddrOf i < 2 ^ pmpaddrBits s.xlen :=
  Nat.mod_lt _ (Nat.two_pow_pos _)

theorem addrBits_eq (x : Xlen) : addrBits x = pmpaddrBits x + 2 := by cases x <;> rfl

/-- R46: within the width of an address register, the view of NAPOT sets the low `g - 1` bits and drops nothing. -/
theorem napotView_eq {x : Xlen} {g a : Nat} (hg : g ≤ pmpaddrBits x) (ha : a < 2 ^ pmpaddrBits x) :
    napotView x g a = a ||| (2 ^ (g - 1) - 1) := by
  have hpow : 2 ^ (g - 1) ≤ 2 ^ pmpaddrBits x := Nat.pow_le_pow_right (by omega) (by omega)
  have hpos : 0 < 2 ^ (g - 1) := Nat.two_pow_pos _
  exact Nat.mod_eq_of_lt (Nat.or_lt_two_pow ha (by omega))

/-- The number of trailing ones is determined by the bits: ones below it, a zero at it. -/
theorem trailingOnes_eq {n a t : Nat} (ha : a < 2 ^ n) (hones : ∀ j < t, a.testBit j = true)
    (hzero : a.testBit t = false) : trailingOnes n a = t := by
  obtain ⟨-, hlow, hstop⟩ := trailingOnes_spec n a
  rcases Nat.lt_trichotomy (trailingOnes n a) t with hlt | heq | hgt
  · have hbit := hones _ hlt
    have hn : trailingOnes n a < n := (Nat.pow_lt_pow_iff_right (by omega)).1
      (Nat.lt_of_le_of_lt (Nat.ge_two_pow_of_testBit hbit) ha)
    simp [hstop hn] at hbit
  · exact heq
  · simp [hlow t hgt] at hzero

theorem trailingOnes_allOnes (n : Nat) : trailingOnes n (2 ^ n - 1) = n := by
  obtain ⟨hle, -, hstop⟩ := trailingOnes_spec n (2 ^ n - 1)
  by_contra hne
  have hlt : trailingOnes n (2 ^ n - 1) < n := by omega
  simpa [Nat.testBit_two_pow_sub_one, hlt] using hstop hlt

/-- A number with `m` low ones has at least as many trailing ones, as far as they are looked at. -/
theorem le_trailingOnes {n m a : Nat} (hm : m ≤ n) (hones : ∀ j < m, a.testBit j = true) :
    m ≤ trailingOnes n a := by
  obtain ⟨-, -, hstop⟩ := trailingOnes_spec n a
  by_contra hlt
  have hbit := hones (trailingOnes n a) (by omega)
  simp [hstop (by omega)] at hbit

section
variable {s : State} {i z : Nat}

theorem region_of_tor (h : matchMode (s.entryCfg i) = .tor) : s.region i =
    (if i = 0 then 0 else torBound s.config.grain (s.pmpaddrOf (i - 1)) * 4,
      torBound s.config.grain (s.pmpaddrOf i) * 4) := by
  simp only [State.region, h]

theorem region_of_napot (h : matchMode (s.entryCfg i) = .napot) {v : Nat}
    (hv : napotView s.xlen s.config.grain (s.pmpaddrOf i) = v) : s.region i =
    (napotBase (pmpaddrBits s.xlen) v, napotBase (pmpaddrBits s.xlen) v + napotSize (pmpaddrBits s.xlen) v) := by
  simp only [State.region, h, hv]

theorem matchesByte_of_off (h : matchMode (s.entryCfg i) = .off) : s.matchesByte i z = false := by
  simp [State.matchesByte, State.region, h]

theorem matchesByte_of_tor (h : matchMode (s.entryCfg i) = .tor) : s.matchesByte i z = true ↔
    (if i = 0 then 0 else torBound s.config.grain (s.pmpaddrOf (i - 1)) * 4) ≤ z ∧
      z < torBound s.config.grain (s.pmpaddrOf i) * 4 := by
  rw [matchesByte_iff, region_of_tor h]

theorem matchesByte_of_na4 (h : matchMode (s.entryCfg i) = .na4) : s.matchesByte i z = true ↔
    s.pmpaddrOf i * 4 ≤ z ∧ z < s.pmpaddrOf i * 4 + 4 := by
  simp only [matchesByte_iff, State.region, h]

/-- R46: the ends of a TOR region at granularity `G` are multiples of `2^(G+2)`. -/
theorem torBound_mul_four_mod (g a : Nat) : torBound g a * 4 % 2 ^ (g + 2) = 0 := by
  rw [torBound, Nat.mul_assoc, show 2 ^ g * 4 = 2 ^ (g + 2) from (Nat.pow_add 2 g 2).symm]
  exact Nat.mul_mod_left ..

/-- R43: a NAPOT region from the trailing ones of the address register as it is seen. -/
theorem matchesByte_of_napot (h : matchMode (s.entryCfg i) = .napot) {v t : Nat}
    (hv : napotView s.xlen s.config.grain (s.pmpaddrOf i) = v) (hones : ∀ j < t, v.testBit j = true)
    (hzero : v.testBit t = false) : s.matchesByte i z = true ↔
      v / 2 ^ (t + 1) * 2 ^ (t + 1) * 4 ≤ z ∧ z < v / 2 ^ (t + 1) * 2 ^ (t + 1) * 4 + 2 ^ (t + 3) := by
  have hlt : v < 2 ^ pmpaddrBits s.xlen := hv ▸ Nat.mod_lt _ (Nat.two_pow_pos _)
  rw [matchesByte_iff, region_of_napot h hv, napotBase, napotSize, trailingOnes_eq hlt hones hzero]

/-- R43: seen as all ones, the address register stands for the whole space. -/
theorem matchesByte_of_napot_allOnes (h : matchMode (s.entryCfg i) = .napot)
    (hv : napotView s.xlen s.config.grain (s.pmpaddrOf i) = 2 ^ pmpaddrBits s.xlen - 1)
    (hz : z < 2 ^ addrBits s.xlen) : s.matchesByte i z = true := by
  have hbase : (2 ^ pmpaddrBits s.xlen - 1) / 2 ^ (pmpaddrBits s.xlen + 1) = 0 :=
    Nat.div_eq_of_lt ((Nat.sub_le ..).trans_lt (Nat.pow_lt_pow_succ Nat.one_lt_two))
  have hsize : 2 ^ addrBits s.xlen ≤ 2 ^ (pmpaddrBits s.xlen + 3) :=
    Nat.pow_le_pow_right (by omega) (by rw [addrBits_eq]; omega)
  rw [matchesByte_iff, region_of_napot h hv, napotBase, napotSize, trailingOnes_allOnes, hbase,
    Nat.zero_mul, Nat.zero_mul, Nat.zero_add]
  exact ⟨Nat.zero_le z, hz.trans_le hsize⟩

/-- R46: a NAPOT region at granularity `G` is a power of two of at least `2^(G+2)` bytes, aligned to its size. -/
theorem region_of_napot_aligned (h : matchMode (s.entryCfg i) = .napot)
    (hg : s.config.grain ≤ pmpaddrBits s.xlen) :
    ∃ e, s.config.grain + 2 ≤ e ∧ (s.region i).2 = (s.region i).1 + 2 ^ e ∧ (s.region i).1 % 2 ^ e = 0 := by
  set v := s.pmpaddrOf i ||| (2 ^ (s.config.grain - 1) - 1)
  have hv : napotView s.xlen s.config.grain (s.pmpaddrOf i) = v := napotView_eq hg (pmpaddrOf_lt s i)
  have hones : s.config.grain - 1 ≤ trailingOnes (pmpaddrBits s.xlen) v :=
    le_trailingOnes (by omega) fun j hj => by simp [v, Nat.testBit_two_pow_sub_one, hj]
  refine ⟨trailingOnes (pmpaddrBits s.xlen) v + 3, by omega, ?_, ?_⟩
  · rw [region_of_napot h hv, napotSize]
  · rw [region_of_napot h hv, napotBase, Nat.mul_assoc,
      show 2 ^ (trailingOnes (pmpaddrBits s.xlen) v + 1) * 4 = 2 ^ (trailingOnes (pmpaddrBits s.xlen) v + 3) from
        (Nat.pow_add 2 _ 2).symm]
    exact Nat.mul_mod_left ..

end

/-- Settles O43, by the region of each matching mode. -/
theorem granularityBoundsRegions : Obligations.GranularityBoundsRegions := by
  unfold Obligations.GranularityBoundsRegions
  intro s i z b a n G v
  refine ⟨fun hoff => matchesByte_of_off (matchMode_of_number .off hoff), fun htor => ?_, fun hnapot hG => ?_⟩
  · have hm := matchMode_of_number .tor htor
    refine ⟨matchesByte_of_tor hm, ?_, ?_⟩
    · rw [region_of_tor hm]
      split
      · exact Nat.zero_mod _
      · exact torBound_mul_four_mod ..
    · rw [region_of_tor hm]
      exact torBound_mul_four_mod ..
  · have hm := matchMode_of_number .napot hnapot
    have hv : napotView s.xlen G a = v := napotView_eq hG (pmpaddrOf_lt s i)
    exact ⟨fun t hones hzero => matchesByte_of_napot hm hv hones hzero,
      fun hall => matchesByte_of_napot_allOnes hm (hv.trans hall), region_of_napot_aligned hm hG⟩

/-- Settles O42: at granularity 0 the address registers are matched as they are. -/
theorem regionByMatchingMode : Obligations.RegionByMatchingMode := by
  unfold Obligations.RegionByMatchingMode
  intro s i z hG b a n
  have hbound (c : Nat) : torBound s.config.grain c = c := by simp [hG, torBound]
  have hv : napotView s.xlen s.config.grain a = a := by
    rw [napotView_eq (by omega) (pmpaddrOf_lt s i), hG]
    exact Nat.or_zero _
  refine ⟨fun hoff => ?_, fun htor => ?_, fun hna4 => ?_, fun hnapot t hones hzero => ?_, fun hnapot hall => ?_⟩
  · exact matchesByte_of_off (matchMode_of_number .off hoff)
  · rw [matchesByte_of_tor (matchMode_of_number .tor htor), hbound, hbound]
  · exact matchesByte_of_na4 (matchMode_of_number .na4 hna4)
  · exact matchesByte_of_napot (matchMode_of_number .napot hnapot) hv hones hzero
  · exact matchesByte_of_napot_allOnes (matchMode_of_number .napot hnapot) (hv.trans hall)

/-! Which entry decides an access, and what the PMP then answers (R42, R44). -/

section
variable {s : State} {addr size i : Nat}

theorem any_matchesByte_iff : (bytesOf addr size).any (s.matchesByte i) = true ↔
    ∃ z, addr ≤ z ∧ z < addr + size ∧ s.matchesByte i z = true := by
  simp only [List.any_eq_true, mem_bytesOf, and_assoc]

theorem any_matchesByte_eq_false_iff : (bytesOf addr size).any (s.matchesByte i) = false ↔
    ∀ z, addr ≤ z → z < addr + size → s.matchesByte i z = false := by
  simp only [List.any_eq_false, mem_bytesOf, and_imp, Bool.not_eq_true]

theorem all_matchesByte_iff : (bytesOf addr size).all (s.matchesByte i) = true ↔
    ∀ z, addr ≤ z → z < addr + size → s.matchesByte i z = true := by
  simp only [List.all_eq_true, mem_bytesOf, and_imp]

theorem decidingEntry_eq_none (h : ∀ j < 64, ∀ z, addr ≤ z → z < addr + size → s.matchesByte j z = false) :
    s.decidingEntry addr size = none := by
  simp only [State.decidingEntry, List.find?_range_eq_none, Bool.not_eq_true', any_matchesByte_eq_false_iff]
  exact h

/-- R13: the register exists only with Smpmp. -/
theorem smpmp_ne_none {c : Config} (h : hasPmpcfg6 c = true) : c.smpmp ≠ none := by
  obtain ⟨v, hv, -⟩ := (hasPmpcfg6_iff c).1 h
  simp [hv]

variable (m : Mode) (kind : AccessKind)

theorem pmpAllows_of_decidingEntry (hs : s.config.smpmp ≠ none) (h : s.decidingEntry addr size = some i) :
    s.pmpAllows m kind addr size =
      ((bytesOf addr size).all (s.matchesByte i) && entryAllows m kind (s.entryCfg i)) := by
  simp only [State.pmpAllows, hs, h, if_false]

theorem pmpAllows_of_no_match (hs : s.config.smpmp ≠ none) (h : s.decidingEntry addr size = none) :
    s.pmpAllows m kind addr size = (m == .machine) := by
  simp only [State.pmpAllows, hs, h, if_false]

/-- R42: an access wholly inside the entry of field `k` is allowed exactly when the field allows it. -/
theorem pmpAllows_of_field {k : Nat} (hk : k < 8) (hr : hasPmpcfg6 s.config = true)
    (h : s.decidingEntry addr size = some (24 + k))
    (hall : ∀ z, addr ≤ z → z < addr + size → s.matchesByte (24 + k) z = true) :
    s.pmpAllows m kind addr size = entryAllows m kind (fieldOf s.pmpcfg6 k) := by
  rw [pmpAllows_of_decidingEntry m kind (smpmp_ne_none hr) h, all_matchesByte_iff.2 hall, Bool.true_and,
    entryCfg_field hr hk]

end

/-- Settles O44, by the meaning of the search. -/
theorem lowestMatchingEntryDecides : Obligations.LowestMatchingEntryDecides := by
  unfold Obligations.LowestMatchingEntryDecides
  intro s addr size i
  simp only [State.decidingEntry, List.find?_range_eq_some, any_matchesByte_iff, List.mem_range, Bool.not_eq_true',
    any_matchesByte_eq_false_iff]
  exact and_left_comm

/-- Settles O45: the match of every byte is one of the two conditions. -/
theorem partialMatchFails : Obligations.PartialMatchFails := by
  unfold Obligations.PartialMatchFails
  intro s m kind addr size i z hs hd hlow hhigh hz
  have hpart : (bytesOf addr size).all (s.matchesByte i) = false :=
    List.all_eq_false.2 ⟨z, mem_bytesOf.2 ⟨hlow, hhigh⟩, by simp [hz]⟩
  rw [pmpAllows_of_decidingEntry m kind hs hd, hpart, Bool.false_and]

/-- Settles O46: no entry decides. -/
theorem noMatchAllowsMachineOnly : Obligations.NoMatchAllowsMachineOnly := by
  unfold Obligations.NoMatchAllowsMachineOnly
  intro s m kind addr size hs h
  rw [pmpAllows_of_no_match m kind hs (decidingEntry_eq_none h)]
  rfl

/-! The check of an access and of a page-table read (R44, R90, R94). -/

theorem accessCheck_eq {s : State} {addr size : Nat} (kind : AccessKind) (h : inSpace s.xlen addr size = true) :
    s.accessCheck kind addr size = if s.pmpAllows (s.effectiveMode kind) kind addr size = true then none
      else some (accessFault kind (BitVec.ofNat 64 addr)) := by
  rw [State.accessCheck, if_pos h]

theorem pageTableCheck_eq {s : State} {pte size : Nat} (kind : AccessKind) (addr : BitVec 64)
    (h : inSpace s.xlen pte size = true) :
    s.pageTableCheck kind addr pte size =
      if s.pmpAllows .supervisor .load pte size = true then none else some (accessFault kind addr) := by
  rw [State.pageTableCheck, if_pos h]

/-- R42: what the check of an access answers where a field decides the whole of it. -/
theorem accessCheck_of_field {s : State} {addr size k : Nat} (kind : AccessKind) (hk : k < 8)
    (hr : hasPmpcfg6 s.config = true) (hin : inSpace s.xlen addr size = true)
    (hd : s.decidingEntry addr size = some (24 + k))
    (hall : ∀ z, addr ≤ z → z < addr + size → s.matchesByte (24 + k) z = true) :
    s.accessCheck kind addr size =
      if (s.effectiveMode kind ≠ .machine ∨ (fieldOf s.pmpcfg6 k).getLsbD 7 = true) ∧
          permBit kind (fieldOf s.pmpcfg6 k) = false
      then some (accessFault kind (BitVec.ofNat 64 addr)) else none := by
  rw [accessCheck_eq kind hin, pmpAllows_of_field _ kind hk hr hd hall]
  simp only [← entryAllows_eq_false_iff]
  cases entryAllows (s.effectiveMode kind) kind (fieldOf s.pmpcfg6 k) <;> rfl

/-- Settles O41: the three clauses are the check at the kinds that share a bit. -/
theorem decidedAccessFaultsWhenBitClear : Obligations.DecidedAccessFaultsWhenBitClear := by
  unfold Obligations.DecidedAccessFaultsWhenBitClear
  intro s kind addr size k hk hr hin hd hall b m applied
  have hcheck := accessCheck_of_field kind hk hr hin hd hall
  refine ⟨?_, ?_, ?_⟩
  · rintro rfl
    exact hcheck
  · rintro (rfl | rfl) <;> exact hcheck
  · rintro (rfl | rfl | rfl) <;> exact hcheck

/-- R90: the Access Fault of a kind, case by case. -/
theorem accessFault_eq (kind : AccessKind) (addr : BitVec 64) : some (accessFault kind addr) =
    if kind = .fetch then some (.instructionAccessFault addr)
    else if kind = .load ∨ kind = .loadReserved then some (.loadAccessFault addr)
    else some (.storeAmoAccessFault addr) := by
  cases kind <;> rfl

/-- Outside M-mode the entries always apply, so a load in supervisor mode is allowed by bit R alone. -/
theorem entryAllows_supervisor_load (b : Byte) : entryAllows .supervisor .load b = b.getLsbD 0 := rfl

/-- Settles O50: the answer of the PMP in each of the three situations. -/
theorem pageTableReadIsSupervisorLoad : Obligations.PageTableReadIsSupervisorLoad := by
  unfold Obligations.PageTableReadIsSupervisorLoad
  intro s kind addr pte size hs hin denied
  have hdenied (h : s.pmpAllows .supervisor .load pte size = false) :
      s.pageTableCheck kind addr pte size = denied := by
    rw [pageTableCheck_eq kind addr hin, h, accessFault_eq]
    rfl
  refine ⟨fun k hk hr hd => ⟨fun hall => ?_, fun z hlow hhigh hz => ?_⟩, fun hnone => ?_⟩
  · rw [pageTableCheck_eq kind addr hin, pmpAllows_of_field _ _ hk hr hd hall, entryAllows_supervisor_load,
      accessFault_eq]
  · exact hdenied (partialMatchFails s _ _ pte size _ z hs hd hlow hhigh hz)
  · exact hdenied (noMatchAllowsMachineOnly s _ _ pte size hs hnone)

/-! Bits 6:5 of a configuration byte are not looked at (R45). -/

section
variable {b c : Byte} (h : b &&& 0x9F#8 = c &&& 0x9F#8)
include h

theorem getLsbD_eq_of_and_eq {i : Nat} (hi : (0x9F#8).getLsbD i = true) : b.getLsbD i = c.getLsbD i := by
  simpa only [BitVec.getLsbD_and, hi, Bool.and_true] using congrArg (fun x => x.getLsbD i) h

theorem matchMode_eq_of_and_eq : matchMode b = matchMode c := by
  simp only [matchMode, getLsbD_eq_of_and_eq h (i := 4) rfl, getLsbD_eq_of_and_eq h (i := 3) rfl]

theorem permBit_eq_of_and_eq (kind : AccessKind) : permBit kind b = permBit kind c := by
  cases kind <;> exact getLsbD_eq_of_and_eq h rfl

theorem entryAllows_eq_of_and_eq (m : Mode) (kind : AccessKind) : entryAllows m kind b = entryAllows m kind c := by
  simp only [entryAllows, applies, locked_eq_getLsbD, getLsbD_eq_of_and_eq h (i := 7) rfl,
    permBit_eq_of_and_eq h kind]

end

section
variable {s : State} {d : BitVec 64} (h : ∀ k < 8, fieldOf d k &&& 0x9F#8 = fieldOf s.pmpcfg6 k &&& 0x9F#8)
include h

theorem entryCfg_resetWith_and (i : Nat) :
    (resetWith d s).entryCfg i &&& 0x9F#8 = s.entryCfg i &&& 0x9F#8 := by
  unfold State.entryCfg
  split
  · rfl
  split
  · rw [resetWith_config]
    split
    · exact h (i - 24) (by omega)
    · rfl
  · rfl

theorem matchesByte_resetWith (i : Nat) : (resetWith d s).matchesByte i = s.matchesByte i := by
  have hmode := matchMode_eq_of_and_eq (entryCfg_resetWith_and h i)
  have hregion : (resetWith d s).region i = s.region i := by
    rw [State.region, State.region, hmode]
    rfl
  funext z
  rw [State.matchesByte, State.matchesByte, hregion]

theorem pmpAllows_resetWith (m : Mode) (kind : AccessKind) (addr size : Nat) :
    (resetWith d s).pmpAllows m kind addr size = s.pmpAllows m kind addr size := by
  simp only [State.pmpAllows, State.decidingEntry, resetWith_config, matchesByte_resetWith h,
    entryAllows_eq_of_and_eq (entryCfg_resetWith_and h _)]

end

/-- Settles O47: the PMP's answer is the only thing a check asks the register for. -/
theorem reservedBitsUnreadByChecks : Obligations.ReservedBitsUnreadByChecks := by
  unfold Obligations.ReservedBitsUnreadByChecks
  intro s d kind addr size orig h
  constructor
  · rw [State.accessCheck, State.accessCheck, pmpAllows_resetWith h]
    rfl
  · rw [State.pageTableCheck, State.pageTableCheck, pmpAllows_resetWith h]
    rfl

/-! What a write means for the next read and the next fetch (R50). -/

@[simp] theorem truncX_readReg (s : State) (i : Nat) : truncX s.xlen (s.readReg i) = s.readReg i := by
  unfold State.readReg
  split
  · cases s.xlen <;> rfl
  · exact truncX_idem ..

/-- R70: truncation to the width keeps the fields in view. -/
theorem fieldOf_truncX {x : Xlen} {k : Nat} (hk : k < 4 ∨ x = .x64) (v : XWord) :
    fieldOf (truncX x v) k = fieldOf v k := by
  cases x with
  | x64 => rfl
  | x32 =>
    have h4 : k < 4 := by simpa using hk
    apply BitVec.eq_of_getLsbD_eq
    intro i hi
    have h32 : 8 * k + i < 32 := by omega
    have h64 : 8 * k + i < 64 := by omega
    simp [truncX, fieldOf_getLsbD, h32, h64]

theorem canAccess_of_machine {s : State} (hm : s.mode = .machine) (hr : hasPmpcfg6 s.config = true) :
    s.canAccess = true := by
  simp [State.canAccess, checkAccess, hm, hr]

/-- A csrrw leaves in each field what the write rule makes of it and of the byte of `rs1`. -/
theorem fieldOf_afterCsrrw (rd rs1 : Nat) (s : State) {k : Nat} (hk : k < 8) :
    fieldOf (afterCsr rd (some (s.readReg rs1)) s).pmpcfg6 k =
      writeField s.config.pmpGranularity k (fieldOf s.pmpcfg6 k) (fieldOf (s.readReg rs1) k) s.xlen := by
  rw [afterCsr_pmpcfg6, Option.elim_some, fieldOf_writtenValue _ _ _ _ hk, truncX_readReg]

/-- Settles O30: the csrrs reads the register that the csrrw left, at the same width. -/
theorem laterReadSeesWrite : Obligations.LaterReadSeesWrite := by
  unfold Obligations.LaterReadSeesWrite
  intro rd rs1 rd' s h0 h32 hm hr
  set t := afterCsr rd (some (s.readReg rs1)) s with ht
  have hs : s.canAccess = true := canAccess_of_machine hm hr
  have htAccess : t.canAccess = true := canAccess_of_machine (by simpa [ht] using hm) (by simpa [ht] using hr)
  refine ⟨t, afterCsr rd' none t, ?_, ?_, fun k hk hview => ?_⟩
  · rw [exec_csrrw, csrAccess_allowed hs]
  · rw [exec_csrrs, csrAccess_allowed htAccess]
    rfl
  · have htView : k < 4 ∨ t.xlen = .x64 := by simpa [ht] using hview
    rw [afterCsr_readReg_rd _ _ _ h0 h32, State.readPmpcfg6, fieldOf_truncX htView, ht, fieldOf_afterCsrrw _ _ _ hk]

/-- R90: a fetch that the check denies ends the step with the fault of the check. -/
theorem step_of_accessCheck_some {s : State} {f : Fault} (h : s.accessCheck .fetch s.fetchAddr 4 = some f) :
    step s = .fault f := by
  simp [step, State.fetch, h, raise]

/-- R42, R90: a fetch decided by a field that denies it ends the step with the instruction access fault. -/
theorem step_of_field_denies {s : State} {k : Nat} (hk : k < 8) (hr : hasPmpcfg6 s.config = true)
    (hin : inSpace s.xlen s.fetchAddr 4 = true) (hd : s.decidingEntry s.fetchAddr 4 = some (24 + k))
    (hx : bitX (fieldOf s.pmpcfg6 k) = false) (happlies : s.mode ≠ .machine ∨ locked (fieldOf s.pmpcfg6 k) = true) :
    step s = .fault (.instructionAccessFault (BitVec.ofNat 64 s.fetchAddr)) := by
  have hentry : entryAllows (s.effectiveMode .fetch) .fetch (s.entryCfg (24 + k)) = false := by
    rw [entryCfg_field hr hk, entryAllows_eq_false_iff, ← locked_eq_getLsbD]
    exact ⟨happlies, hx⟩
  apply step_of_accessCheck_some
  rw [accessCheck_eq .fetch hin, pmpAllows_of_decidingEntry _ _ (smpmp_ne_none hr) hd, hentry, Bool.and_false]
  rfl

/-- Settles O31: the byte is accepted with L set and X clear, so the field denies the next fetch in every mode. -/
theorem lockWithoutExecuteStopsNextFetch : Obligations.LockWithoutExecuteStopsNextFetch := by
  unfold Obligations.LockWithoutExecuteStopsNextFetch
  intro rd rs1 k s t hk hreach hunlocked hlock hx hlegal hexec hd hin
  rw [exec_csrrw] at hexec
  obtain ⟨haccess, rfl⟩ := csrAccess_next hexec
  have hr : hasPmpcfg6 s.config = true := (Bool.and_eq_true_iff.1 haccess).1
  have hfield := (fieldOf_afterCsrrw rd rs1 s hk).trans (writeField_accepts hreach hunlocked hlegal)
  refine step_of_field_denies hk (by simpa using hr) hin hd ?_ (.inr ?_)
  · rw [hfield]
    simpa [bitX] using hx
  · obtain ⟨-, hl, -⟩ := accepted_bits (fieldOf (s.readReg rs1) k) (fieldOf s.pmpcfg6 k)
    rw [hfield, hl, hlock]

end Sys2Proof.Machine
end

section
/-! Proofs of the encoding (spec/30_encoding.md): the six rows of the table as words of fields, decode and encode as
inverses of each other, the word that a step runs, what the pseudo-instructions and the immediate forms do to the
register, and the accesses to other registers that raise. -/

namespace Sys2Proof.Machine

open Sys2Proof Sys2Proof.Safety

/-! The fields of a word as numbers (R60). -/

theorem rdField_eq (w : BitVec 32) : rdField w = w.toNat / 2 ^ 7 % 32 := by
  simp [rdField, Nat.shiftRight_eq_div_pow]

theorem operandField_eq (w : BitVec 32) : operandField w = w.toNat / 2 ^ 15 % 32 := by
  simp [operandField, Nat.shiftRight_eq_div_pow]

theorem rdField_lt (w : BitVec 32) : rdField w < 32 := (w.extractLsb' 7 5).isLt

theorem operandField_lt (w : BitVec 32) : operandField w < 32 := (w.extractLsb' 15 5).isLt

/-- A number above a word that ends below its lowest bit is added to it. -/
theorem toNat_shiftLeft_or {n k : Nat} {b : BitVec 32} (hn : n * 2 ^ k < 2 ^ 32) (hb : b.toNat < 2 ^ k) :
    (BitVec.ofNat 32 n <<< k ||| b).toNat = n * 2 ^ k + b.toNat := by
  have hn32 : n < 2 ^ 32 := (Nat.le_mul_of_pos_right n (Nat.two_pow_pos k)).trans_lt hn
  rw [BitVec.toNat_or, BitVec.toNat_shiftLeft, BitVec.toNat_ofNat, Nat.mod_eq_of_lt hn32, Nat.shiftLeft_eq,
    Nat.mod_eq_of_lt hn, ← Nat.shiftLeft_eq, ← Nat.shiftLeft_add_eq_or_of_lt hb]

/-- R62: the fields do not overlap, so the word is their sum. -/
theorem encodeFields_toNat {f op rd : Nat} (hf : f < 8) (ho : op < 32) (hr : rd < 32) :
    (encodeFields f op rd).toNat = 0x3A6 * 2 ^ 20 + op * 2 ^ 15 + f * 2 ^ 12 + rd * 2 ^ 7 + 0x73 := by
  have hrd := toNat_shiftLeft_or (n := rd) (k := 7) (b := 0x73#32) (by omega) (by decide)
  have hf3 := toNat_shiftLeft_or (n := f) (k := 12) (by omega) (hrd.trans_lt (by simp; omega))
  have hop := toNat_shiftLeft_or (n := op) (k := 15) (by omega) (hf3.trans_lt (by simp [hrd]; omega))
  have hcsr := toNat_shiftLeft_or (n := 0x3A6) (k := 20) (by omega) (hop.trans_lt (by simp [hrd, hf3]; omega))
  rw [hop, hf3, hrd] at hcsr
  simp only [encodeFields, BitVec.or_assoc]
  rw [hcsr]
  simp only [BitVec.toNat_ofNat]
  omega

theorem rdField_encodeFields {f op rd : Nat} (hf : f < 8) (ho : op < 32) (hr : rd < 32) :
    rdField (encodeFields f op rd) = rd := by
  rw [rdField_eq, encodeFields_toNat hf ho hr]
  omega

theorem operandField_encodeFields {f op rd : Nat} (hf : f < 8) (ho : op < 32) (hr : rd < 32) :
    operandField (encodeFields f op rd) = op := by
  rw [operandField_eq, encodeFields_toNat hf ho hr]
  omega

/-! The rows of the table (R62). The match of a row is the word with both operands 0. -/

theorem encodeFields_eq_or (f op rd : Nat) : encodeFields f op rd =
    encodeFields f 0 0 ||| (BitVec.ofNat 32 op <<< 15) ||| (BitVec.ofNat 32 rd <<< 7) := by
  simp only [encodeFields, BitVec.zero_shiftLeft, BitVec.or_zero]
  ac_rfl

/-- The mask drops the operands. -/
theorem encodeFields_and_rowMask {f op rd : Nat} (hf : f < 8) (ho : op < 32) (hr : rd < 32) :
    encodeFields f op rd &&& rowMask = encodeFields f 0 0 := by
  have hmatch : encodeFields f 0 0 &&& rowMask = encodeFields f 0 0 := by
    interval_cases f <;> rfl
  have hop : (BitVec.ofNat 32 op <<< 15) &&& rowMask = 0#32 := by
    ext j hj
    interval_cases j <;> simp [rowMask, Laws.Format.ofNat_bit ho]
  have hrd : (BitVec.ofNat 32 rd <<< 7) &&& rowMask = 0#32 := by
    ext j hj
    interval_cases j <;> simp [rowMask, Laws.Format.ofNat_bit hr]
  rw [encodeFields_eq_or, BitVec.and_or_distrib_right, BitVec.and_or_distrib_right, hmatch, hop, hrd, BitVec.or_zero,
    BitVec.or_zero]

/-- A word is its bits under the mask and its two operands. -/
theorem masked_or_fields (w : BitVec 32) :
    w &&& rowMask ||| (BitVec.ofNat 32 (operandField w) <<< 15) ||| (BitVec.ofNat 32 (rdField w) <<< 7) = w := by
  simp only [operandField, rdField, BitVec.ofNat_toNat]
  ext j hj
  interval_cases j <;> simp [rowMask]

/-- The match of a row and the words of its instructions come from the same `funct3`. -/
theorem encode_row {r : BitVec 32 × (Nat → Nat → Instr)} (hr : r ∈ rows) :
    ∃ f < 8, r.1 = encodeFields f 0 0 ∧ ∀ rd op, encode (r.2 rd op) = encodeFields f op rd := by
  simp only [rows, List.cons_append, List.nil_append, List.mem_cons, List.not_mem_nil, or_false] at hr
  rcases hr with rfl | rfl | rfl | rfl | rfl | rfl
  · exact ⟨1, by omega, rfl, fun _ _ => rfl⟩
  · exact ⟨2, by omega, rfl, fun _ _ => rfl⟩
  · exact ⟨3, by omega, rfl, fun _ _ => rfl⟩
  · exact ⟨5, by omega, rfl, fun _ _ => rfl⟩
  · exact ⟨6, by omega, rfl, fun _ _ => rfl⟩
  · exact ⟨7, by omega, rfl, fun _ _ => rfl⟩

/-- The well-formed instructions are those of the rows with operands below 32. -/
theorem wellFormed_iff_row (i : Instr) :
    WellFormed i ↔ ∃ r ∈ rows, ∃ rd < 32, ∃ op < 32, i = r.2 rd op := by
  cases i <;> simp [rows, WellFormed, Instr.wellFormed, isRegNum, isUimm]

/-! Decoding. -/

theorem row_eq_of_match_eq {r r' : BitVec 32 × (Nat → Nat → Instr)} (hr : r ∈ rows) (hr' : r' ∈ rows)
    (h : r.1 = r'.1) : r = r' :=
  List.inj_on_of_nodup_map (f := Prod.fst) (by decide) hr hr' h

/-- A word decodes to an instruction exactly through the row whose match it has (R62). -/
theorem decode_eq_ok_iff {w : BitVec 32} {i : Instr} : decode w = .ok i ↔
    ∃ r ∈ rows, w &&& rowMask = r.1 ∧ i = r.2 (rdField w) (operandField w) := by
  unfold decode
  constructor
  · intro h
    split at h
    · rename_i r hfind
      cases h
      exact ⟨r, List.mem_of_find?_eq_some hfind, by simpa using List.find?_some hfind, rfl⟩
    · cases h
  · rintro ⟨r, hr, hm, rfl⟩
    split
    · rename_i r' hfind
      have hm' : w &&& rowMask = r'.1 := by simpa using List.find?_some hfind
      rw [row_eq_of_match_eq (List.mem_of_find?_eq_some hfind) hr (hm'.symm.trans hm)]
    · rename_i hnone
      exact absurd hm (by simpa using List.find?_eq_none.1 hnone r hr)

theorem decode_encode {i : Instr} (h : WellFormed i) : decode (encode i) = .ok i := by
  obtain ⟨r, hr, rd, hrd, op, hop, rfl⟩ := (wellFormed_iff_row i).1 h
  obtain ⟨f, hf, hmatch, hword⟩ := encode_row hr
  refine decode_eq_ok_iff.2 ⟨r, hr, ?_, ?_⟩
  · rw [hword, encodeFields_and_rowMask hf hop hrd, hmatch]
  · rw [hword, rdField_encodeFields hf hop hrd, operandField_encodeFields hf hop hrd]

/-- Settles O3, by the row of the instruction; the bytes of the word make it again. -/
theorem decodeEncodeRoundTrip : Obligations.DecodeEncodeRoundTrip := by
  unfold Obligations.DecodeEncodeRoundTrip
  intro i rest h
  refine ⟨decode_encode h, ?_⟩
  simp only [encodeBytes, bytesOfWord, List.cons_append, List.nil_append, decodeBytes, wordOfBytes_byteOfWord,
    decode_encode h]

/-- Settles O2, by the row that names the instruction. -/
theorem decodeFollowsMatchAndMask : Obligations.DecodeFollowsMatchAndMask := by
  unfold Obligations.DecodeFollowsMatchAndMask
  intro w rd op
  simp [decode_eq_ok_iff, rows, rowMask, rdField_eq, operandField_eq]

/-- Settles O4: the match of the row and the two operands are all the bits of the word. -/
theorem encodeOfDecodedWord : Obligations.EncodeOfDecodedWord := by
  unfold Obligations.EncodeOfDecodedWord
  intro w i h
  obtain ⟨r, hr, hm, rfl⟩ := decode_eq_ok_iff.1 h
  obtain ⟨f, -, hmatch, hword⟩ := encode_row hr
  refine ⟨(wellFormed_iff_row _).2 ⟨r, hr, _, rdField_lt w, _, operandField_lt w, rfl⟩, ?_⟩
  rw [hword, encodeFields_eq_or, ← hmatch, ← hm, masked_or_fields]

/-- Settles O5, by the sum of the fields at each `funct3`. -/
theorem encodedWordIsSumOfFields : Obligations.EncodedWordIsSumOfFields := by
  unfold Obligations.EncodedWordIsSumOfFields
  intro rd op hrd hop
  exact ⟨encodeFields_toNat (by omega) hop hrd, encodeFields_toNat (by omega) hop hrd,
    encodeFields_toNat (by omega) hop hrd, encodeFields_toNat (by omega) hop hrd,
    encodeFields_toNat (by omega) hop hrd, encodeFields_toNat (by omega) hop hrd⟩

/-- Settles O1, by evaluation of the decoder. -/
theorem decodesSpecWords : Obligations.DecodesSpecWords :=
  ⟨rfl, rfl, rfl, rfl, rfl, rfl, rfl⟩

/-! The step and memory. -/

theorem tableWord_toNat (w : BitVec 32) : tableWord 32 w.toNat = w := by
  rw [tableWord, Nat.mod_eq_of_lt w.isLt, BitVec.ofNat_toNat, BitVec.setWidth_eq]

/-- Settles O7: placing the word changes nothing the check of the fetch reads, and the word reads back. -/
theorem storedWordRuns : Obligations.StoredWordRuns := by
  unfold Obligations.StoredWordRuns
  intro s i h haligned hcheck
  have hword : Memory.readWord (s.withFetchWord 32 (encode i).toNat).mem s.fetchAddr = some (encode i) := by
    rw [State.withFetchWord_mem, readWord_writeWord, tableWord_toNat]
  exact step_of_fetch_decode (fetch_of_readWord hcheck haligned hword) (decode_encode h)

/-- Settles O38: a step writes no memory, and placing a word keeps the addresses rising. -/
theorem memoryStaysCanonical : Obligations.MemoryStaysCanonical := by
  unfold Obligations.MemoryStaysCanonical
  intro s hs
  refine ⟨fun t h => ?_, fun n w => writeWord_wf _ _ hs⟩
  obtain ⟨rd, written, rfl⟩ := step_next_afterCsr h
  rw [MemoryOk, afterCsr_mem]
  exact hs

/-! The pseudo-instructions (R65). -/

/-- R7: `XLEN`-bit values are closed under or. -/
theorem truncX_or {x : Xlen} {u v : XWord} (hu : truncX x u = u) (hv : truncX x v = v) :
    truncX x (u ||| v) = u ||| v := by
  apply truncX_of_lt
  rw [← hu, ← hv, BitVec.toNat_or]
  exact Nat.or_lt_two_pow (truncX_lt x u) (truncX_lt x v)

/-- R7: clearing bits of an `XLEN`-bit value leaves one. -/
theorem truncX_and {x : Xlen} {u : XWord} (hu : truncX x u = u) (v : XWord) : truncX x (u &&& v) = u &&& v := by
  apply truncX_of_lt
  rw [← hu, BitVec.toNat_and]
  exact Nat.and_le_left.trans_lt (truncX_lt x u)

@[simp] theorem truncX_readPmpcfg6 (s : State) : truncX s.xlen s.readPmpcfg6 = s.readPmpcfg6 := truncX_idem ..

/-- R72: an instruction that writes an `XLEN`-bit value offers its bytes to the fields. -/
theorem afterCsr_fieldsWritten (rd : Nat) {v : XWord} {s : State} (hv : truncX s.xlen v = v) :
    FieldsWritten v s (afterCsr rd (some v) s) := by
  intro k hk
  rw [afterCsr_pmpcfg6, Option.elim_some, fieldOf_writtenValue _ _ _ _ hk, hv]

theorem afterCsr_onlyRdWritten {rd : Nat} (h : rd < 32) (written : Option XWord) (s : State) :
    OnlyRdWritten rd s.readPmpcfg6 s (afterCsr rd written s) :=
  ⟨fun h0 => afterCsr_readReg_rd rd written s h0 h, rfl, fun _ _ hj => afterCsr_readReg_other rd written s hj⟩

/-- With `rd = x0` no general register is written. -/
theorem afterCsr_zero_readReg (written : Option XWord) (s : State) (j : Nat) :
    (afterCsr 0 written s).readReg j = s.readReg j := by
  by_cases hj : j = 0
  · simp [hj]
  · exact afterCsr_readReg_other 0 written s hj

/-- Settles O28: each pseudo-instruction is its instruction with one operand `x0`. -/
theorem pseudoInstructionEffects : Obligations.PseudoInstructionEffects := by
  unfold Obligations.PseudoInstructionEffects
  intro n s hn hm hr
  have haccess := canAccess_of_machine hm hr
  have hread := truncX_readPmpcfg6 s
  have hreg := truncX_readReg s n
  have hcsrr : exec (Pseudo.csrr n) s = .next (afterCsr n none s) := by
    rw [Pseudo.csrr, exec_csrrs, csrAccess_allowed haccess]
    rfl
  have hcsrw : exec (Pseudo.csrw n) s = .next (afterCsr 0 (some (s.readReg n)) s) := by
    rw [Pseudo.csrw, exec_csrrw, csrAccess_allowed haccess]
  have hcsrs (hn0 : n ≠ 0) :
      exec (Pseudo.csrs n) s = .next (afterCsr 0 (some (s.readPmpcfg6 ||| s.readReg n)) s) := by
    rw [Pseudo.csrs, exec_csrrs, csrAccess_allowed haccess, if_pos (bne_iff_ne.2 hn0)]
  have hcsrc (hn0 : n ≠ 0) :
      exec (Pseudo.csrc n) s = .next (afterCsr 0 (some (s.readPmpcfg6 &&& ~~~s.readReg n)) s) := by
    rw [Pseudo.csrc, exec_csrrc, csrAccess_allowed haccess, if_pos (bne_iff_ne.2 hn0)]
  exact ⟨⟨_, hcsrr, afterCsr_pmpcfg6 .., afterCsr_onlyRdWritten hn none s⟩,
    ⟨_, hcsrw, afterCsr_fieldsWritten 0 hreg, fun j _ => afterCsr_zero_readReg _ s j⟩,
    fun hn0 => ⟨_, hcsrs hn0, afterCsr_fieldsWritten 0 (truncX_or hread hreg),
      fun j _ => afterCsr_zero_readReg _ s j⟩,
    fun hn0 => ⟨_, hcsrc hn0, afterCsr_fieldsWritten 0 (truncX_and hread _),
      fun j _ => afterCsr_zero_readReg _ s j⟩⟩

/-! The immediate forms (R63). -/

/-- A bit that is set after the write rule was set before, or in the byte offered. -/
theorem writeField_getLsbD {P k : Nat} {old new : Byte} {x : Xlen} {i : Nat}
    (h : (writeField P k old new x).getLsbD i = true) : old.getLsbD i = true ∨ new.getLsbD i = true := by
  obtain hkeep | ⟨htake, -⟩ := writeField_cases P k old new x
  · exact .inl (hkeep ▸ h)
  · rw [htake] at h
    simp only [BitVec.getLsbD_or, BitVec.getLsbD_and, Bool.or_eq_true, Bool.and_eq_true] at h
    exact h.elim (fun hn => .inr hn.1) (fun ho => .inl ho.1)

theorem truncX_getLsbD {x : Xlen} {v : XWord} {j : Nat} (h : (truncX x v).getLsbD j = true) :
    v.getLsbD j = true := by
  cases x with
  | x64 => exact h
  | x32 =>
    simp only [truncX, BitVec.getLsbD_setWidth, Bool.and_eq_true] at h
    exact h.2.2

/-- R63, R71: a bit that is set after a write was set before, or in the value offered. -/
theorem writtenValue_getLsbD {P : Nat} {x : Xlen} {old : BitVec 64} {v : XWord} {j : Nat}
    (h : (writtenValue P x old v).getLsbD j = true) : old.getLsbD j = true ∨ v.getLsbD j = true := by
  have hj : j < 64 := BitVec.lt_of_getLsbD h
  have hbit (u : BitVec 64) : u.getLsbD j = (fieldOf u (j / 8)).getLsbD (j % 8) := by
    rw [fieldOf_getLsbD, Nat.div_add_mod, decide_eq_true (Nat.mod_lt j (by omega)), Bool.true_and]
  rw [hbit, fieldOf_writtenValue _ _ _ _ (by omega)] at h
  obtain hold | hnew := writeField_getLsbD h
  · exact .inl (by rwa [hbit])
  · rw [← hbit] at hnew
    exact .inr (truncX_getLsbD hnew)

/-- `t` has no bit above bit 4 that `s` has not. -/
def NoNewHighBits (s t : BitVec 64) : Prop := ∀ j, t.getLsbD j = true → s.getLsbD j = true ∨ j < 5

theorem uimmValue_noNewHighBits (s : BitVec 64) (uimm : Nat) : NoNewHighBits s (uimmValue uimm) := by
  intro j h
  rw [uimmValue, BitVec.getLsbD_setWidth, Bool.and_eq_true] at h
  exact .inr (BitVec.lt_of_getLsbD h.2)

theorem readPmpcfg6_noNewHighBits (s : State) : NoNewHighBits s.pmpcfg6 s.readPmpcfg6 :=
  fun _ h => .inl (truncX_getLsbD h)

theorem NoNewHighBits.or {s u v : BitVec 64} (hu : NoNewHighBits s u) (hv : NoNewHighBits s v) :
    NoNewHighBits s (u ||| v) := by
  intro j h
  rw [BitVec.getLsbD_or, Bool.or_eq_true] at h
  exact h.elim (hu j) (hv j)

theorem NoNewHighBits.and {s u : BitVec 64} (hu : NoNewHighBits s u) (v : BitVec 64) :
    NoNewHighBits s (u &&& v) := by
  intro j h
  rw [BitVec.getLsbD_and, Bool.and_eq_true] at h
  exact hu j h.1

/-- When the value offered sets no new bit above bit 4, neither does the instruction. -/
theorem afterCsr_noNewHighBits {rd : Nat} {written : Option XWord} {s : State}
    (h : ∀ v ∈ written, NoNewHighBits s.pmpcfg6 v) : NoNewHighBits s.pmpcfg6 (afterCsr rd written s).pmpcfg6 := by
  intro j hj
  rw [afterCsr_pmpcfg6] at hj
  cases written with
  | none => exact .inl hj
  | some v => exact (writtenValue_getLsbD hj).elim .inl (h v rfl j)

theorem NoNewHighBits.and_not_eq_zero {s t : BitVec 64} (h : NoNewHighBits s t) :
    t &&& ~~~s &&& ~~~0x1F#64 = 0#64 := by
  have hlow : ∀ j < 64, (0x1F#64).getLsbD j = decide (j < 5) := by decide
  apply BitVec.eq_of_getLsbD_eq
  intro j hj
  have hj' := h j
  rw [BitVec.getLsbD_and, BitVec.getLsbD_and, BitVec.getLsbD_not, BitVec.getLsbD_not, hlow j hj, BitVec.getLsbD_zero]
  by_cases h5 : j < 5
  · simp [h5]
  · cases ht : t.getLsbD j <;> simp_all

/-- Settles O29: the value offered is the immediate, or the value read with bits of the immediate set or cleared. -/
theorem immediateFormsReachLowBitsOnly : Obligations.ImmediateFormsReachLowBitsOnly := by
  unfold Obligations.ImmediateFormsReachLowBitsOnly
  intro rd uimm s t _ _ h
  apply NoNewHighBits.and_not_eq_zero
  have himm := uimmValue_noNewHighBits s.pmpcfg6 uimm
  have hread := readPmpcfg6_noNewHighBits s
  rw [exec_csrrwi, exec_csrrsi, exec_csrrci] at h
  obtain h | h | h := h
  · obtain ⟨-, rfl⟩ := csrAccess_next h
    refine afterCsr_noNewHighBits fun v hv => ?_
    cases hv
    exact himm
  · obtain ⟨-, rfl⟩ := csrAccess_next h
    refine afterCsr_noNewHighBits fun v hv => ?_
    split at hv <;> cases hv
    exact hread.or himm
  · obtain ⟨-, rfl⟩ := csrAccess_next h
    refine afterCsr_noNewHighBits fun v hv => ?_
    split at hv <;> cases hv
    exact hread.and _

/-! Accesses to other registers (R64, R40, R30). -/

theorem csrField_encode {i : Instr} (h : WellFormed i) : csrField (encode i) = 0x3A6#12 := by
  have hformat : Laws.Format.Statement i := by
    cases i with
    | csrrw rd rs1 => exact Laws.Format.csrrw rd rs1
    | csrrs rd rs1 => exact Laws.Format.csrrs rd rs1
    | csrrc rd rs1 => exact Laws.Format.csrrc rd rs1
    | csrrwi rd uimm => exact Laws.Format.csrrwi rd uimm
    | csrrsi rd uimm => exact Laws.Format.csrrsi rd uimm
    | csrrci rd uimm => exact Laws.Format.csrrci rd uimm
  exact (hformat h).1

/-- A word with another CSR number is none of the six. -/
theorem decode_of_csrField_ne {w : BitVec 32} (h : csrField w ≠ 0x3A6#12) : decode w = .error (rejectionOf w) := by
  cases hd : decode w with
  | ok i =>
    obtain ⟨hwf, henc⟩ := encodeOfDecodedWord w i hd
    exact absurd (henc ▸ csrField_encode hwf) h
  | error r =>
    unfold decode at hd
    split at hd <;> cases hd
    rfl

/-- R64: a word with the opcode and a `funct3` of a CSR instruction is rejected, if at all, for its CSR number. -/
theorem rejectionOf_csr {w : BitVec 32} (ho : opcodeField w = 0x73#7) (h0 : funct3Field w ≠ 0#3)
    (h4 : funct3Field w ≠ 4#3) : rejectionOf w = .otherCsr := by
  have hlow : w &&& 3#32 = (opcodeField w).setWidth 32 &&& 3#32 := by
    ext j hj
    interval_cases j <;> simp [opcodeField]
  have h3 : w &&& 3#32 = 3#32 := by rw [hlow, ho]; rfl
  simp [rejectionOf, h3, ho, h0, h4]

/-- R64: the step on a CSR instruction on another register whose access is illegal. -/
theorem step_of_otherCsrIllegal {s : State} {w : BitVec 32} (hf : s.fetch = .ok w) (ho : opcodeField w = 0x73#7)
    (h0 : funct3Field w ≠ 0#3) (h4 : funct3Field w ≠ 4#3) (hc : csrField w ≠ 0x3A6#12)
    (h : s.otherCsrIllegal w = true) : step s = .fault (.illegalInstruction w) := by
  simp [step, hf, decode_of_csrField_ne hc, rejectionOf_csr ho h0 h4, State.rejectWord, h, raise]

theorem csrLevel_eq (c : BitVec 12) : csrLevel c = c.toNat / 256 % 4 := by
  simp [csrLevel, Nat.shiftRight_eq_div_pow]

theorem csrReadOnly_iff (c : BitVec 12) : csrReadOnly c = true ↔ c.toNat / 1024 = 3 := by
  have hlt : c.toNat < 4096 := c.isLt
  rw [csrReadOnly, beq_iff_eq, ← BitVec.toNat_inj, BitVec.extractLsb'_toNat, Nat.shiftRight_eq_div_pow]
  simp only [BitVec.toNat_ofNat]
  omega

/-- Settles O49: each clause is one of the reasons of `otherCsrIllegal_iff`. -/
theorem otherRegisterIllegalAccess : Obligations.OtherRegisterIllegalAccess := by
  unfold Obligations.OtherRegisterIllegalAccess
  intro s w hf ho h0 h4 hc h
  refine step_of_otherCsrIllegal hf ho h0 h4 hc ((otherCsrIllegal_iff s w).2 ?_)
  rw [csrLevel_eq, csrReadOnly_iff, csrWrites_iff]
  obtain ⟨hm, hlevel⟩ | ⟨hm, hlevel⟩ | hreadOnly | habsent := h
  · left
    rcases hm with hm | hm <;> simp only [hm, Mode.privilege] <;> omega
  · left
    rcases hm with hm | hm <;> simp only [hm, Mode.privilege] <;> omega
  · exact .inr (.inl hreadOnly)
  · exact .inr (.inr habsent)

end Sys2Proof.Machine
end

section
/-! Proofs of the CSR access (spec/40_csr_access.md): what a read returns, the write rule of one field and of the
register, and the six instructions with their effect, their frame and the fault outside M-mode. -/

namespace Sys2Proof.Machine

open Sys2Proof Sys2Proof.Safety

/-! The fields in reach of an access, and what a read returns (R70). -/

/-- R14, R71: a field is in reach unless it is one of the upper four at `XLEN = 32`. -/
theorem inReach_iff {k : Nat} {x : Xlen} : (k < 4 ∨ x = .x64) ↔ ¬(x = .x32 ∧ 4 ≤ k) := by
  cases x <;> simp

/-- R70: above the width nothing is in view. -/
theorem fieldOf_truncX_x32_high {k : Nat} (hk : 4 ≤ k) (v : XWord) : fieldOf (truncX .x32 v) k = 0#8 := by
  apply BitVec.eq_of_getLsbD_eq
  intro i hi
  have h32 : ¬8 * k + i < 32 := by omega
  simp [truncX, fieldOf_getLsbD, h32]

/-- Settles O9: truncation to the width keeps the fields in view and drops the others. -/
theorem readReturnsStoredFields : Obligations.ReadReturnsStoredFields := by
  unfold Obligations.ReadReturnsStoredFields
  intro s k hk
  rw [State.readPmpcfg6]
  split
  · rename_i hout
    obtain ⟨hx, h4⟩ := hout
    rw [hx, fieldOf_truncX_x32_high h4]
  · rename_i hview
    exact fieldOf_truncX (inReach_iff.2 hview) _

/-! The write rule of one field (R71). -/

/-- R71: a byte is accepted into an unlocked field in reach when it is legal, and dropped as a whole otherwise. -/
theorem writeField_eq_ite (P k : Nat) (old new : Byte) (x : Xlen) :
    writeField P k old new x = if locked old = false ∧ legal P new = true ∧ (k < 4 ∨ x = .x64)
      then (new &&& 0x9F#8) ||| (old &&& 0x60#8) else old := by
  split
  · rename_i h
    obtain ⟨hunlocked, hlegal, hreach⟩ := h
    exact writeField_accepts hreach hunlocked hlegal
  · rename_i h
    obtain hkeep | ⟨-, haccept⟩ := writeField_cases P k old new x
    · exact hkeep
    · exact absurd haccept h

theorem writeField_of_locked {P k : Nat} {old new : Byte} {x : Xlen} (h : locked old = true) :
    writeField P k old new x = old := by
  simp [writeField_eq_ite, h]

/-- R71: outside the width a field is kept, whatever is offered. -/
theorem writeField_of_unreachable {P k : Nat} {old new : Byte} {x : Xlen} (h : ¬(k < 4 ∨ x = .x64)) :
    writeField P k old new x = old := by
  simp [writeField_eq_ite, h]

/-- An accepted byte has the old bits 6:5 and the new other bits. -/
theorem accepted_getLsbD (new old : Byte) {i : Nat} (hi : i < 8) :
    ((new &&& 0x9F#8) ||| (old &&& 0x60#8)).getLsbD i =
      if i = 5 ∨ i = 6 then old.getLsbD i else new.getLsbD i := by
  interval_cases i <;> simp

/-- Bits 7 and 4:0 of an accepted byte are those of the new one. -/
theorem accepted_and_9F (new old : Byte) :
    ((new &&& 0x9F#8) ||| (old &&& 0x60#8)) &&& 0x9F#8 = new &&& 0x9F#8 := by
  ext i hi
  interval_cases i <;> simp

/-- When the bits 6:5 agree, the new byte is accepted as it is. -/
theorem accepted_of_reservedBits_eq {new old : Byte} (h : old &&& 0x60#8 = new &&& 0x60#8) :
    (new &&& 0x9F#8) ||| (old &&& 0x60#8) = new := by
  rw [h, ← BitVec.and_or_distrib_left]
  exact BitVec.and_allOnes

theorem reservedPair_iff (b : Byte) : reservedPair b = true ↔ b.getLsbD 0 = false ∧ b.getLsbD 1 = true := by
  rw [reservedPair, show 0x1#8 = BitVec.twoPow 8 0 from rfl, show 0x2#8 = BitVec.twoPow 8 1 from rfl,
    BitVec.and_twoPow, BitVec.and_twoPow]
  cases b.getLsbD 0 <;> cases b.getLsbD 1 <;> decide

/-- R19: 2 in bits 4:3 stands for NA4. -/
theorem asksNa4_iff (b : Byte) : asksNa4 b = true ↔ b.getLsbD 4 = true ∧ b.getLsbD 3 = false := by
  have hbits : b &&& 0x18#8 =
      (if b.getLsbD 4 then 0x10#8 else 0#8) ||| (if b.getLsbD 3 then 0x8#8 else 0#8) := by
    rw [show 0x18#8 = BitVec.twoPow 8 4 ||| BitVec.twoPow 8 3 from rfl, BitVec.and_or_distrib_left,
      BitVec.and_twoPow, BitVec.and_twoPow]
    rfl
  rw [asksNa4, hbits]
  cases b.getLsbD 4 <;> cases b.getLsbD 3 <;> decide

/-- R26: what makes a byte illegal. -/
theorem legal_eq_false_iff (P : Nat) (b : Byte) :
    legal P b = false ↔ reservedPair b = true ∨ (2 ≤ P ∧ asksNa4 b = true) := by
  simp [legal, na4Ok, imp_iff_not_or, Nat.lt_iff_add_one_le]

/-- Settles O10: the conditions listed are those under which the byte is not accepted. -/
theorem writeFieldRule : Obligations.WriteFieldRule := by
  unfold Obligations.WriteFieldRule
  intro P k old new x hk
  simp only [← locked_eq_getLsbD, ← reservedPair_iff, ← asksNa4_iff, ← legal_eq_false_iff]
  split
  · rename_i hdrop
    obtain ⟨h4, hx⟩ | hlocked | hillegal := hdrop
    · exact writeField_of_unreachable (by simp [hx, h4])
    · exact writeField_of_locked hlocked
    · simp [writeField_eq_ite, hillegal]
  · rename_i haccept
    obtain ⟨hreach, hunlocked, hlegal⟩ :
        ¬(4 ≤ k ∧ x = .x32) ∧ locked old = false ∧ legal P new = true := by
      simpa only [not_or, Bool.not_eq_true, Bool.not_eq_false] using haccept
    rw [writeField_accepts (inReach_iff.2 (mt And.symm hreach)) hunlocked hlegal]
    exact fun i hi => accepted_getLsbD new old hi

/-- Settles O11: the nested tests are the conjunction of the conditions on which the byte is accepted. -/
theorem writeFieldAgreesWithSourceText : Obligations.WriteFieldAgreesWithSourceText := by
  unfold Obligations.WriteFieldAgreesWithSourceText
  intro P k old new hk hbits
  have hunlocked : locked old = false ↔ old &&& 0x80#8 = 0#8 := by simp [locked]
  have hlegal : legal P new = true ↔
      ¬(new &&& 0x1#8 = 0#8 ∧ new &&& 0x2#8 = 0x2#8) ∧ (P < 2 ∨ new &&& 0x18#8 ≠ 0x10#8) := by
    simp [legal, reservedPair, na4Ok, asksNa4, imp_iff_not_or]
  rw [writeField_eq_ite, accepted_of_reservedBits_eq hbits]
  simp only [hunlocked, hlegal, or_true, and_true, ite_and]

/-- Writing a field's own byte back changes nothing, whether it is accepted or dropped. -/
theorem writeField_self (P k : Nat) (b : Byte) (x : Xlen) : writeField P k b b x = b := by
  obtain hkeep | ⟨htake, -⟩ := writeField_cases P k b b x
  · exact hkeep
  · rw [htake, accepted_of_reservedBits_eq rfl]

/-- The second write of a byte finds what the first one left. -/
theorem writeField_idem (P k : Nat) (old new : Byte) (x : Xlen) :
    writeField P k (writeField P k old new x) new x = writeField P k old new x := by
  obtain hkeep | ⟨htake, -⟩ := writeField_cases P k old new x
  · rw [hkeep, hkeep]
  · rw [htake]
    obtain hkeep' | ⟨htake', -⟩ := writeField_cases P k ((new &&& 0x9F#8) ||| (old &&& 0x60#8)) new x
    · exact hkeep'
    · obtain ⟨hreserved, -⟩ := accepted_bits new old
      rw [htake']
      exact congrArg ((new &&& 0x9F#8) ||| ·) hreserved

/-! The write of the register (R72, R81). -/

/-- R72: each field by its own rule. The bytes that truncation to the width drops are those of fields out of reach. -/
theorem fieldOf_writePmpcfg6 (s : State) (v : XWord) {k : Nat} (hk : k < 8) :
    fieldOf (s.writePmpcfg6 v).pmpcfg6 k =
      writeField s.config.pmpGranularity k (fieldOf s.pmpcfg6 k) (fieldOf v k) s.xlen := by
  rw [State.writePmpcfg6_pmpcfg6, fieldOf_writtenValue _ _ _ _ hk]
  by_cases hreach : k < 4 ∨ s.xlen = .x64
  · rw [fieldOf_truncX hreach]
  · rw [writeField_of_unreachable hreach, writeField_of_unreachable hreach]

/-- Settles O12. -/
theorem registerWriteIsFieldwise : Obligations.RegisterWriteIsFieldwise := by
  unfold Obligations.RegisterWriteIsFieldwise
  intro s v
  exact ⟨fun k hk => fieldOf_writePmpcfg6 s v hk, State.writePmpcfg6_readReg s v, State.writePmpcfg6_pc s v,
    by simp [Untouched]⟩

/-- Settles O13: a field in view is offered its own byte, and another is out of reach. -/
theorem writeBackIsIdentity : Obligations.WriteBackIsIdentity := by
  unfold Obligations.WriteBackIsIdentity
  intro s _
  refine eq_of_fields fun k hk => ?_
  rw [fieldOf_writePmpcfg6 _ _ hk]
  by_cases hreach : k < 4 ∨ s.xlen = .x64
  · rw [State.readPmpcfg6, fieldOf_truncX hreach, writeField_self]
  · exact writeField_of_unreachable hreach

theorem writtenValue_idem (P : Nat) (x : Xlen) (old : BitVec 64) (v : XWord) :
    writtenValue P x (writtenValue P x old v) v = writtenValue P x old v := by
  refine eq_of_fields fun k hk => ?_
  simp only [fieldOf_writtenValue _ _ _ _ hk, writeField_idem]

/-- Settles O14: the write touches the register only, and there each field is written as before. -/
theorem writeIsIdempotent : Obligations.WriteIsIdempotent := by
  unfold Obligations.WriteIsIdempotent
  intro s v
  exact congrArg (resetWith · s) (writtenValue_idem s.config.pmpGranularity s.xlen s.pmpcfg6 v)

/-- Settles O15: the four are all that the field's rule is given. -/
theorem fieldsAreIndependent : Obligations.FieldsAreIndependent := by
  unfold Obligations.FieldsAreIndependent
  intro s t v w k hk hx hP hold hnew
  rw [fieldOf_writePmpcfg6 _ _ hk, fieldOf_writePmpcfg6 _ _ hk, hx, hP, hold, hnew]

/-- R28: no sequence of writes changes a locked field. -/
theorem fieldOf_foldl_writePmpcfg6_of_locked (vs : List XWord) {s : State} {k : Nat} (hk : k < 8)
    (h : locked (fieldOf s.pmpcfg6 k) = true) :
    fieldOf (vs.foldl State.writePmpcfg6 s).pmpcfg6 k = fieldOf s.pmpcfg6 k := by
  induction vs generalizing s with
  | nil => rfl
  | cons v vs ih =>
    have hkeep : fieldOf (s.writePmpcfg6 v).pmpcfg6 k = fieldOf s.pmpcfg6 k := by
      rw [fieldOf_writePmpcfg6 _ _ hk, writeField_of_locked h]
    rw [List.foldl_cons, ih (hkeep ▸ h), hkeep]

/-- Settles O16: the byte is accepted with its lock, and a locked field is kept. -/
theorem oneWriteLocksForGood : Obligations.OneWriteLocksForGood := by
  unfold Obligations.OneWriteLocksForGood
  intro s v later k hk hreach hunlocked hlock hlegal
  have hfield := (fieldOf_writePmpcfg6 s v hk).trans (writeField_accepts hreach hunlocked hlegal)
  have hlocked : locked (fieldOf (s.writePmpcfg6 v).pmpcfg6 k) = true := by
    obtain ⟨-, hl, -⟩ := accepted_bits (fieldOf v k) (fieldOf s.pmpcfg6 k)
    rw [hfield, hl, hlock]
  refine ⟨?_, hlocked, fieldOf_foldl_writePmpcfg6_of_locked later hk hlocked⟩
  rw [hfield, accepted_and_9F]

/-! The six instructions (R74 to R79): a swap and a modification, each an access with its effect, its frame and its
fault (R91). -/

/-- R63: the immediate is the number, zero-extended. -/
theorem uimmValue_eq_ofNat {uimm : Nat} (h : uimm < 32) : uimmValue uimm = BitVec.ofNat 64 uimm := by
  apply BitVec.eq_of_toNat_eq
  rw [uimmValue_toNat h, BitVec.toNat_ofNat]
  omega

/-- R63: an immediate is an `XLEN`-bit value at both widths. -/
theorem truncX_ofNat {uimm : Nat} (h : uimm < 32) (x : Xlen) :
    truncX x (BitVec.ofNat 64 uimm) = BitVec.ofNat 64 uimm := by
  have hbits : 2 ^ 5 ≤ 2 ^ x.bits := Nat.pow_le_pow_right (by omega) (by cases x <;> decide)
  apply truncX_of_lt
  rw [← uimmValue_eq_ofNat h, uimmValue_toNat h]
  omega

section
variable {rd : Nat} {s : State} {f : State → State} {v : XWord} (word : BitVec 32)
  (hrd : rd < 32) (hr : hasPmpcfg6 s.config = true) (hv : truncX s.xlen v = v)

/-- R91: outside M-mode nothing but the fault happens. -/
theorem csrAccess_of_not_machine (hm : s.mode ≠ .machine) :
    csrAccess word s f = .fault (.illegalInstruction word) :=
  csrAccess_denied (by simp [State.canAccess, checkAccess, hm]) word f

include hrd hr hv

/-- R74, R77: an access that always writes `v`. -/
theorem csrAccess_swap (hf : f s = afterCsr rd (some v) s) :
    (s.mode = .machine → ∃ t, csrAccess word s f = .next t ∧ FieldsWritten v s t ∧
      OnlyRdWritten rd s.readPmpcfg6 s t ∧ PcAdvanced s t ∧ Untouched s t) ∧
    (s.mode ≠ .machine → csrAccess word s f = .fault (.illegalInstruction word)) := by
  refine ⟨fun hm => ⟨f s, csrAccess_allowed (canAccess_of_machine hm hr) word f, ?_⟩, csrAccess_of_not_machine word⟩
  rw [hf]
  exact ⟨afterCsr_fieldsWritten rd hv, afterCsr_onlyRdWritten hrd _ s, afterCsr_pcAdvanced rd _ s,
    afterCsr_untouched rd _ s⟩

/-- R75, R76, R78, R79: an access that writes `v` when its operand number `n` is not 0. -/
theorem csrAccess_modify {n : Nat} (hf : f s = afterCsr rd (if n != 0 then some v else none) s) :
    (s.mode = .machine → ∃ t, csrAccess word s f = .next t ∧ (n = 0 → t.pmpcfg6 = s.pmpcfg6) ∧
      (n ≠ 0 → FieldsWritten v s t) ∧ OnlyRdWritten rd s.readPmpcfg6 s t ∧ PcAdvanced s t ∧ Untouched s t) ∧
    (s.mode ≠ .machine → csrAccess word s f = .fault (.illegalInstruction word)) := by
  refine ⟨fun hm => ⟨f s, csrAccess_allowed (canAccess_of_machine hm hr) word f, ?_⟩, csrAccess_of_not_machine word⟩
  rw [hf]
  refine ⟨?_, ?_, afterCsr_onlyRdWritten hrd _ s, afterCsr_pcAdvanced rd _ s, afterCsr_untouched rd _ s⟩
  · rintro rfl
    exact afterCsr_pmpcfg6 rd none s
  · intro hn
    rw [if_pos (bne_iff_ne.2 hn)]
    exact afterCsr_fieldsWritten rd hv

end

/-- Settles O19, as a swap with `rs1`. -/
theorem csrrwSwaps : Obligations.CsrrwSwaps := by
  unfold Obligations.CsrrwSwaps
  intro rd rs1 s hrd _ hr
  rw [exec_csrrw, encode, encodeFields_eq_or]
  exact csrAccess_swap _ hrd hr (truncX_readReg s rs1) rfl

/-- Settles O20, as a modification with the bits of `rs1` set. -/
theorem csrrsSetsBits : Obligations.CsrrsSetsBits := by
  unfold Obligations.CsrrsSetsBits
  intro rd rs1 s hrd _ hr
  rw [exec_csrrs, encode, encodeFields_eq_or]
  exact csrAccess_modify _ hrd hr (truncX_or (truncX_readPmpcfg6 s) (truncX_readReg s rs1)) rfl

/-- Settles O21, as a modification with the bits of `rs1` cleared. -/
theorem csrrcClearsBits : Obligations.CsrrcClearsBits := by
  unfold Obligations.CsrrcClearsBits
  intro rd rs1 s hrd _ hr
  rw [exec_csrrc, encode, encodeFields_eq_or]
  exact csrAccess_modify _ hrd hr (truncX_and (truncX_readPmpcfg6 s) _) rfl

/-- Settles O22, as a swap with the immediate. -/
theorem csrrwiWritesImmediate : Obligations.CsrrwiWritesImmediate := by
  unfold Obligations.CsrrwiWritesImmediate
  intro rd uimm s hrd hu hr
  rw [exec_csrrwi, uimmValue_eq_ofNat hu, encode, encodeFields_eq_or]
  exact csrAccess_swap _ hrd hr (truncX_ofNat hu s.xlen) rfl

/-- Settles O23, as a modification with the bits of the immediate set. -/
theorem csrrsiSetsImmediateBits : Obligations.CsrrsiSetsImmediateBits := by
  unfold Obligations.CsrrsiSetsImmediateBits
  intro rd uimm s hrd hu hr
  rw [exec_csrrsi, uimmValue_eq_ofNat hu, encode, encodeFields_eq_or]
  exact csrAccess_modify _ hrd hr (truncX_or (truncX_readPmpcfg6 s) (truncX_ofNat hu s.xlen)) rfl

/-- Settles O24, as a modification with the bits of the immediate cleared. -/
theorem csrrciClearsImmediateBits : Obligations.CsrrciClearsImmediateBits := by
  unfold Obligations.CsrrciClearsImmediateBits
  intro rd uimm s hrd hu hr
  rw [exec_csrrci, uimmValue_eq_ofNat hu, encode, encodeFields_eq_or]
  exact csrAccess_modify _ hrd hr (truncX_and (truncX_readPmpcfg6 s) _) rfl

end Sys2Proof.Machine
end

section
/-! Proofs of the exceptions (spec/60_exceptions.md): when one of the six instructions stops and when it completes,
that no written value raises, and the fetch that a field without X denies. -/

namespace Sys2Proof.Machine

open Sys2Proof

/-! When an instruction stops (R91, R92, R94). -/

/-- R74 to R79: each of the six is its effect behind the access test, which is the only place where it can stop. -/
theorem exec_eq_csrAccess (i : Instr) (s : State) :
    ∃ effect : State → State, exec i s = csrAccess (encode i) s effect := by
  cases i with
  | csrrw rd rs1 => exact ⟨_, exec_csrrw rd rs1 s⟩
  | csrrs rd rs1 => exact ⟨_, exec_csrrs rd rs1 s⟩
  | csrrc rd rs1 => exact ⟨_, exec_csrrc rd rs1 s⟩
  | csrrwi rd uimm => exact ⟨_, exec_csrrwi rd uimm s⟩
  | csrrsi rd uimm => exact ⟨_, exec_csrrsi rd uimm s⟩
  | csrrci rd uimm => exact ⟨_, exec_csrrci rd uimm s⟩

/-- R91: what makes an access to the register illegal. -/
theorem canAccess_eq_false_iff (s : State) :
    s.canAccess = false ↔ s.mode ≠ .machine ∨ hasPmpcfg6 s.config = false := by
  rw [State.canAccess, Bool.and_eq_false_iff, or_comm, checkAccess, beq_eq_false_iff_ne]

theorem exec_of_canAccess {s : State} (h : s.canAccess = true) (i : Instr) : ∃ t, exec i s = .next t := by
  obtain ⟨effect, hexec⟩ := exec_eq_csrAccess i s
  exact ⟨effect s, hexec.trans (csrAccess_allowed h _ _)⟩

theorem exec_of_not_canAccess {s : State} (h : s.canAccess = false) (i : Instr) :
    exec i s = .fault (.illegalInstruction (encode i)) := by
  obtain ⟨effect, hexec⟩ := exec_eq_csrAccess i s
  exact hexec.trans (csrAccess_denied h _ _)

/-- Settles O25: the access is denied, and its fault is illegal instruction. -/
theorem illegalAccessRaises : Obligations.IllegalAccessRaises := by
  unfold Obligations.IllegalAccessRaises
  intro i s _ hillegal
  exact ⟨exec_of_not_canAccess ((canAccess_eq_false_iff s).2 hillegal) i, rfl⟩

/-- Settles O26: the access is allowed whatever is written, and each of the three conditions rules out that the
write rule accepts the byte. -/
theorem writtenValueNeverRaises : Obligations.WrittenValueNeverRaises := by
  unfold Obligations.WrittenValueNeverRaises
  refine ⟨fun i s hm hr => exec_of_canAccess (canAccess_of_machine hm hr) i, fun s v k hk hdrop => ?_⟩
  rw [fieldOf_writePmpcfg6 s v hk]
  obtain hillegal | hlocked | ⟨h4, hx⟩ := hdrop
  · simp [writeField_eq_ite, hillegal]
  · exact writeField_of_locked hlocked
  · exact writeField_of_unreachable (by simp [hx, h4])

/-- Settles O27: an allowed access completes, and a denied one raises illegal instruction. -/
theorem onlyStopOfAnInstruction : Obligations.OnlyStopOfAnInstruction := by
  unfold Obligations.OnlyStopOfAnInstruction
  intro i s
  cases haccess : s.canAccess with
  | true =>
    obtain ⟨t, ht⟩ := exec_of_canAccess haccess i
    simp [ht]
  | false =>
    rw [exec_of_not_canAccess haccess i]
    refine ⟨fun f hf => ?_, fun r hr => by cases hr⟩
    cases hf
    exact ⟨rfl, (canAccess_eq_false_iff s).1 haccess⟩

/-! The fetch that a field denies (R90). -/

/-- Settles O48: the field denies the fetch, whether or not it matches all of its bytes. -/
theorem fetchWithoutExecuteFaults : Obligations.FetchWithoutExecuteFaults := by
  unfold Obligations.FetchWithoutExecuteFaults
  intro s k hk hr hin hd hx happlies
  exact ⟨step_of_field_denies hk hr hin hd hx happlies, rfl⟩

end Sys2Proof.Machine
end

section
/-! Proofs of the reset (spec/70_reset_and_hazards.md): the state after reset, and the reset step with any lawful
draw. -/

namespace Sys2Proof.Machine

open Sys2Proof Sys2Proof.Safety

/-- R27, R100: the law of the draw is the legality of the register's fields. -/
theorem fieldsLegal_iff_legalDraw (s : State) : FieldsLegal s ↔ legalDraw s.config s.pmpcfg6 = true := by
  simp [legalDraw, allLegal]

/-! The state after reset (R100, R102). -/

/-- Register `j` of storage is 0 after reset, and one past the last reads 0 too (log 4). -/
theorem reset_regs_getD (j : Nat) : State.reset.regs[j]?.getD 0#64 = 0#64 := by
  simp only [State.reset, Vector.getElem?_replicate]
  split <;> rfl

theorem reset_widthsOk : WidthsOk State.reset := by
  refine ⟨by decide, fun j _ => ?_⟩
  rw [reset_regs_getD]
  exact Nat.two_pow_pos _

/-- Settles O39: the draw 0 is lawful at the granularity after reset, and memory is empty. -/
theorem resetMeetsInvariants : Obligations.ResetMeetsInvariants := by
  unfold Obligations.ResetMeetsInvariants
  have hdraw : legalDraw State.reset.config State.reset.pmpcfg6 = true := by decide
  have haligned : State.reset.pc.toNat % 4 = 0 := by decide
  exact ⟨(fieldsLegal_iff_legalDraw _).2 hdraw, reset_widthsOk, (fetchAddr_mod_four _).trans haligned,
    reset_memory_wf⟩

/-! The reset step (R100). -/

@[simp] theorem resetWith_readReg (draw : BitVec 64) (s : State) (j : Nat) :
    (resetWith draw s).readReg j = s.readReg j := rfl

theorem resetWith_fieldsLegal {draw : BitVec 64} {s : State} (h : legalDraw s.config draw = true) :
    FieldsLegal (resetWith draw s) :=
  (fieldsLegal_iff_legalDraw _).2 h

theorem resetWith_untouched (draw : BitVec 64) (s : State) : Untouched s (resetWith draw s) := by
  simp [Untouched]

/-- Settles O40: the reset step writes the register only, with a draw whose law makes its fields legal. -/
theorem resetTakesAnyLegalDraw : Obligations.ResetTakesAnyLegalDraw := by
  unfold Obligations.ResetTakesAnyLegalDraw
  intro s draw hdraw
  exact ⟨resetWith_pmpcfg6 draw s, resetWith_fieldsLegal hdraw, resetWith_pc draw s, resetWith_readReg draw s,
    resetWith_untouched draw s⟩

end Sys2Proof.Machine
end
